-- ==== Sys2Proof/Word.lean ====
section
/-! DEFINITION. The bit-vector widths of the MH2 block (spec/00_scope.md R8: every value is a bit vector of a stated width, read as an unsigned integer). -/

namespace Sys2Proof

/-- A cell of the input buffer, 8 bits (R32). -/
abbrev Byte := BitVec 8

/-- A 32-bit register, the U32 word and a command word (R8, R80). -/
abbrev Word := BitVec 32

/-- The 64-bit word of U64 and of `RESULT` (R8, R24). -/
abbrev DWord := BitVec 64

end Sys2Proof
end

