-- ==== Sys2Proof/Syntax.lean ====
section
/-! DEFINITION. The instructions of the MH2 block (spec/30_encoding.md section 1: four commands and eight micro-operations), their two encoded forms, and what the outside can do to the block (host transactions and reset). -/

namespace Sys2Proof

/-- The rows of spec/opcode_table.json. None has an operand: all operands are implicit registers (R81). -/
inductive Instr where
  | hash32   -- R102
  | hash64   -- R104
  | hash32d  -- R103
  | hash64d  -- R105
  | init32   -- R121
  | block32  -- R123
  | tail32   -- R125
  | final32  -- R127
  | init64   -- R141
  | block64  -- R143
  | tail64   -- R145
  | final64  -- R147
  deriving DecidableEq, Repr

/-- An instruction as the hardware presents it: a command word on `CMD` (format `CMDW`, R80), or the sequencer's
selector with `VAR` in bit 3 and `PHASE` in bits 2:0 (format `USTEP`, R84). -/
inductive Code where
  | cmdw (w : Word)
  | ustep (sel : BitVec 4)
  deriving DecidableEq, Repr

/-- The two datapaths (R1). -/
inductive HashUnit where
  | u32
  | u64
  deriving DecidableEq, Repr

/-- The two host-visible address spaces (R50). -/
inductive Space where
  | reg
  | data
  deriving DecidableEq, Repr

/-- Read, or write of a value: the low `8n` bits of `wdata` (R54; log 10). -/
inductive Kind where
  | read
  | write (wdata : Word)
  deriving DecidableEq, Repr

/-- A host transaction `(space, kind, off, n, wdata)` (R54): any offset and any size may be presented, legal or not. -/
structure Transaction where
  space : Space
  kind : Kind
  off : Nat
  n : Nat
  deriving DecidableEq, Repr

/-- What happens next, as the environment chooses it: one host transaction, one turn of the sequencer, or the reset
event (R11, R64; log 4). -/
inductive Turn where
  | host (t : Transaction)
  | sequencer
  | reset
  deriving DecidableEq, Repr

end Sys2Proof
end

