-- ==== Sys2Proof/WellFormed.lean ====
section
/-! DEFINITION. Well-formed terms. An instruction has no operand to check (spec/30_encoding.md R81); a host write carries an `8n`-bit value (spec/20_memory.md R54). -/

namespace Sys2Proof

/-- Every instruction is well formed: commands carry no immediates and no register numbers (R81). -/
def Instr.wf : Instr → Bool
  | .hash32 | .hash64 | .hash32d | .hash64d => true
  | .init32 | .block32 | .tail32 | .final32 => true
  | .init64 | .block64 | .tail64 | .final64 => true

/-- A write's value fits its size: `wdata` is an `8n`-bit value (R54). Legality of the transaction is another question
(`Machine.refusalOf`): the port must answer illegal ones too. -/
def Transaction.wf (t : Transaction) : Bool :=
  match t.kind with
  | .read => true
  | .write v => v.toNat < 2 ^ (8 * t.n)

/-- A turn is well formed when its transaction is. -/
def Turn.wf : Turn → Bool
  | .host t => t.wf
  | .sequencer => true
  | .reset => true

end Sys2Proof
end

