-- ==== Sys2Proof/Decode.lean ====
section
/-! DEFINITION. Decoding of command words and sequencer selectors, total and rejecting by name, and the encoder written from the same tables (spec/30_encoding.md R80, R82 to R85). -/

namespace Sys2Proof

/-- Why a code stands for no instruction. -/
inductive Rejection where
  /-- A 32-bit value other than the four command words (R83). -/
  | reservedCommand
  /-- Selector `0x0` or `0x8`: `PHASE = IDLE` selects nothing (R84). -/
  | idleSelector
  /-- A selector with `PHASE` in 5, 6, 7 (R85). -/
  | unreachableSelector
  deriving DecidableEq, Repr

/-- The decoder of R82: `if w[31:3] != 0 or w[1:0] in {00, 11} then reserved else (unit = w[1:0], dflt = w[2])`. -/
def decodeCommand (w : Word) : Except Rejection Instr :=
  let rsv := w.extractLsb' 3 29
  let d := w.getLsbD 2
  let u := w.extractLsb' 0 2
  if rsv ≠ 0#29 then .error .reservedCommand
  else if u = 0b01#2 then .ok (if d then .hash32d else .hash32)
  else if u = 0b10#2 then .ok (if d then .hash64d else .hash64)
  else .error .reservedCommand

/-- The selection table of R84 on `{VAR, PHASE[2:0]}`. -/
def decodeSelector (sel : BitVec 4) : Except Rejection Instr :=
  let var := sel.getLsbD 3
  let phase := sel.extractLsb' 0 3
  if phase = 0#3 then .error .idleSelector
  else if phase = 1#3 then .ok (if var then .init64 else .init32)
  else if phase = 2#3 then .ok (if var then .block64 else .block32)
  else if phase = 3#3 then .ok (if var then .tail64 else .tail32)
  else if phase = 4#3 then .ok (if var then .final64 else .final32)
  else .error .unreachableSelector

/-- Decoding of either form. -/
def decode : Code → Except Rejection Instr
  | .cmdw w => decodeCommand w
  | .ustep sel => decodeSelector sel

/-- A command word from its fields `RSV = 0`, `D`, `U` (R80). -/
def commandWord (d : Bool) (u : BitVec 2) : Word :=
  (0#29 ++ BitVec.ofBool d ++ u : BitVec (29 + 1 + 2))

/-- A selector from `VAR` and `PHASE` (R84). -/
def selectorOf (var : Bool) (phase : BitVec 3) : BitVec 4 :=
  (BitVec.ofBool var ++ phase : BitVec (1 + 3))

/-- The code of an instruction, by the rows of R82 and R84. -/
def encode : Instr → Code
  | .hash32 => .cmdw (commandWord false 0b01#2)
  | .hash64 => .cmdw (commandWord false 0b10#2)
  | .hash32d => .cmdw (commandWord true 0b01#2)
  | .hash64d => .cmdw (commandWord true 0b10#2)
  | .init32 => .ustep (selectorOf false 1#3)
  | .block32 => .ustep (selectorOf false 2#3)
  | .tail32 => .ustep (selectorOf false 3#3)
  | .final32 => .ustep (selectorOf false 4#3)
  | .init64 => .ustep (selectorOf true 1#3)
  | .block64 => .ustep (selectorOf true 2#3)
  | .tail64 => .ustep (selectorOf true 3#3)
  | .final64 => .ustep (selectorOf true 4#3)

/-- The instruction of a word as spec/opcode_table.json numbers it: rows of format `CMDW` have 32 bits, rows of format
`USTEP` 4 bits, which in whole bytes are 8 with the upper four zero (log 20). -/
def decodeTableWord (nbits w : Nat) : Option Instr :=
  if nbits = 32 then
    if w < 2 ^ 32 then (decodeCommand (BitVec.ofNat 32 w)).toOption else none
  else if nbits = 8 ∨ nbits = 4 then
    if w < 16 then (decodeSelector (BitVec.ofNat 4 w)).toOption else none
  else none

end Sys2Proof
end

