-- ==== Sys2Proof/Config.lean ====
section
/-! DEFINITION. What one implementation fixes and the spec leaves open (spec/00_scope.md R7, spec/92_eei_decisions.md D6 and D27). No constant here has a body, so no proof can rest on a value of it. -/

namespace Sys2Proof

/-- The open capacity parameter, before it is brought into the legal range by `Machine.bufBytes` (R7, D6; log 1). -/
opaque Config.bufUnits : Nat

/-- Free value: what a `DATA` cell holds that nothing has written since reset number `epoch`, at byte offset `off`
(R36, R193, U1 "any value"; log 2). It is stable within one epoch and unrelated between epochs. -/
opaque Config.freeByte (epoch off : Nat) : Byte

end Sys2Proof
end

