-- ==== Sys2Proof/Machine/Murmur.lean ====
section
/-! DEFINITION. The constants (spec/00_scope.md R6) and the pure functions of the two units (spec/41_hash32_path.md R122, R124, R126, R128; spec/42_hash64_path.md R142, R144, R146, R148). `*` is the wrapping product, `>>>` the logical right shift and `setWidth` the zero extension of R9. UNVERIFIED: the source audits neither its constants nor where the tail bytes are counted from (log 16). -/

namespace Sys2Proof.Machine

/-- `M32`, the U32 multiplier (R6). -/
def m32 : Word := 0x5bd1e995#32

/-- `M64`, the U64 multiplier (R6). -/
def m64 : DWord := 0xc6a4a7935bd1e995#64

/-- `DEFSEED32` (R6). -/
def defSeed32 : Word := 0x9747b28c#32

/-- `DEFSEED64`, a 32-bit pattern (R6). -/
def defSeed64 : Word := 0xe17a1465#32

/-- The sum over `j < n` of `d (off + j) * 2^(8*j)`: a little-endian read as a number (R52). -/
def leNat (d : Nat → Byte) (off : Nat) : Nat → Nat
  | 0 => 0
  | n + 1 => (d off).toNat + 256 * leNat d (off + 1) n

/-- A 4-byte group (R52, R128). -/
def group32 (d : Nat → Byte) (off : Nat) : Word := BitVec.ofNat 32 (leNat d off 4)

/-- An 8-byte group (R52, R148). -/
def group64 (d : Nat → Byte) (off : Nat) : DWord := BitVec.ofNat 64 (leNat d off 8)

/-! ### U32 -/

/-- R122. -/
def kmix32 (k : Word) : Word :=
  let k1 := k * m32
  let k2 := k1 ^^^ (k1 >>> 24)
  k2 * m32

/-- The loop body of R123: first multiply the accumulator, then XOR the mixed word in. -/
def mixBlock32 (h k : Word) : Word := (h * m32) ^^^ kmix32 k

/-- R124: fallthrough over the tail bytes that exist; one multiply if there is at least one. -/
def tail32 (h : Word) (rem : Nat) (b0 b1 b2 : Byte) : Word :=
  let h2 := if rem = 3 then h ^^^ (b2.setWidth 32 <<< 16) else h
  let h1 := if 2 ≤ rem then h2 ^^^ (b1.setWidth 32 <<< 8) else h2
  if 1 ≤ rem then (h1 ^^^ b0.setWidth 32) * m32 else h1

/-- R126. -/
def fmix32 (h : Word) : Word :=
  let a := h ^^^ (h >>> 13)
  let b := a * m32
  b ^^^ (b >>> 15)

/-- The accumulator after the first `n` groups (R128), in increasing order. -/
def blocks32 (d : Nat → Byte) (h : Word) : Nat → Word
  | 0 => h
  | n + 1 => mixBlock32 (blocks32 d h n) (group32 d (4 * n))

/-- The initial accumulator (R121). -/
def init32 (seed len : Word) : Word := seed ^^^ len

/-- Full groups of U32, `LEN >> 2`. -/
def nblk32 (len : Word) : Word := len >>> 2

/-- Tail bytes of U32, `LEN & 3`. -/
def rem32 (len : Word) : Nat := (len &&& 3#32).toNat

/-- Start of the U32 tail, `LEN & ~3`. -/
def tailBase32 (len : Word) : Nat := (len &&& ~~~3#32).toNat

/-- R128: `MH32(d, l, s)`. -/
def mh32 (d : Nat → Byte) (l s : Word) : Word :=
  let h := blocks32 d (init32 s l) (nblk32 l).toNat
  let t := tailBase32 l
  fmix32 (tail32 h (rem32 l) (d t) (d (t + 1)) (d (t + 2)))

/-! ### U64 -/

/-- R142. -/
def kmix64 (k : DWord) : DWord :=
  let k1 := k * m64
  let k2 := k1 ^^^ (k1 >>> 47)
  k2 * m64

/-- The loop body of R143: first XOR the mixed word in, then multiply. -/
def mixBlock64 (h k : DWord) : DWord := (h ^^^ kmix64 k) * m64

/-- R144. -/
def tail64 (h : DWord) (rem : Nat) (b0 b1 b2 b3 b4 b5 b6 : Byte) : DWord :=
  let h6 := if rem = 7 then h ^^^ (b6.setWidth 64 <<< 48) else h
  let h5 := if 6 ≤ rem then h6 ^^^ (b5.setWidth 64 <<< 40) else h6
  let h4 := if 5 ≤ rem then h5 ^^^ (b4.setWidth 64 <<< 32) else h5
  let h3 := if 4 ≤ rem then h4 ^^^ (b3.setWidth 64 <<< 24) else h4
  let h2 := if 3 ≤ rem then h3 ^^^ (b2.setWidth 64 <<< 16) else h3
  let h1 := if 2 ≤ rem then h2 ^^^ (b1.setWidth 64 <<< 8) else h2
  if 1 ≤ rem then (h1 ^^^ b0.setWidth 64) * m64 else h1

/-- R146. -/
def fmix64 (h : DWord) : DWord :=
  let a := h ^^^ (h >>> 47)
  let b := a * m64
  b ^^^ (b >>> 47)

/-- The accumulator after the first `n` groups (R148). -/
def blocks64 (d : Nat → Byte) (h : DWord) : Nat → DWord
  | 0 => h
  | n + 1 => mixBlock64 (blocks64 d h n) (group64 d (8 * n))

/-- The initial accumulator (R141): the seed and the length are zero-extended, the length is multiplied. -/
def init64 (seed len : Word) : DWord := seed.setWidth 64 ^^^ (len.setWidth 64 * m64)

/-- Full groups of U64, `LEN >> 3`. -/
def nblk64 (len : Word) : Word := len >>> 3

/-- Tail bytes of U64, `LEN & 7`. -/
def rem64 (len : Word) : Nat := (len &&& 7#32).toNat

/-- Start of the U64 tail, `LEN & ~7`. -/
def tailBase64 (len : Word) : Nat := (len &&& ~~~7#32).toNat

/-- R148: `MH64(d, l, s)`. -/
def mh64 (d : Nat → Byte) (l s : Word) : DWord :=
  let h := blocks64 d (init64 s l) (nblk64 l).toNat
  let t := tailBase64 l
  fmix64 (tail64 h (rem64 l) (d t) (d (t + 1)) (d (t + 2)) (d (t + 3)) (d (t + 4)) (d (t + 5)) (d (t + 6)))

end Sys2Proof.Machine
end

