-- ==== Sys2Proof/Machine/State.lean ====
section
/-! DEFINITION. The state of the MH2 block (spec/10_state.md R20), the answers of its host port, and the reasons a step can stop. -/

namespace Sys2Proof.Machine

/-- The response of a host transaction (R54). -/
inductive Resp where
  | okay
  | error
  deriving DecidableEq, Repr

/-- Why a transaction is refused: the closed list of R163, in the priority order of R164. A refusal is no stop of the
machine: the port answers `ERROR` and the block goes on. -/
inductive Reason where
  | badSize
  | misaligned
  | unmapped
  | readOnly
  | busy
  | illegalCmd
  deriving DecidableEq, Repr

/-- What the port answered to a transaction: the response, the data of a read (zero-extended to 32 bits; `0` for a
refused read), and, for a model's use only, the reason of a refusal (R54, R163, R164; log 9). -/
structure Reply where
  resp : Resp
  rdata : Option Word
  reason : Option Reason
  deriving DecidableEq, Repr

/-- The written cells of `DATA`: pairs of offset and byte, offsets strictly rising. An offset that is not listed has
not been written since reset (log 13). -/
abbrev Memory := List Host.Cell

/-- The complete state (R20), and three fields of the model's own: `resets`, `turns`, `reply`. -/
structure State where
  /-- `SEED`, 32 bits (R21). -/
  seed : Word
  /-- `LEN`, 32 bits (R22). -/
  len : Word
  /-- `DSIZE`, 32 bits (R23). -/
  dsize : Word
  /-- `RESULT`, 64 bits (R24). -/
  result : DWord
  /-- `DONE` (R25). -/
  done : Bool
  /-- `ERR` (R25). -/
  err : Bool
  /-- `VAR`: false for U32, true for U64 (R38). -/
  var : Bool
  /-- `PHASE`, 3 bits: 0 IDLE, 1 INIT, 2 BLOCK, 3 TAIL, 4 FINAL (R26; log 7). -/
  phase : BitVec 3
  /-- `CNT`, 32 bits (R27). -/
  cnt : Word
  /-- `H32`, 32 bits (R28). -/
  h32 : Word
  /-- `H64`, 64 bits (R29). -/
  h64 : DWord
  /-- `DATA`: its cells written since the last reset (R32). -/
  data : Memory
  /-- MODEL: number of reset events so far; selects the unspecified contents of unwritten cells (log 2). -/
  resets : Nat
  /-- MODEL: what the environment does next, in order (log 4). -/
  turns : List Turn
  /-- MODEL: the port's answer to the last transaction (log 9). -/
  reply : Option Reply
  deriving DecidableEq, Repr

/-- Why a step stops. -/
inductive Fault where
  /-- Raised by `step`: nothing is offered by the environment and the sequencer has no step (`PHASE` is IDLE, R84, or
  5, 6, 7, R174). Safe: the spec gives no step here (log 5). -/
  | noStep
  /-- Raised by BLOCK32, BLOCK64, TAIL32, TAIL64: a read at `off + n > BUF_BYTES`, which R10 excludes; R62 shows that no
  execution meets it. Safe: the spec names no such cell (log 8). -/
  | readOutsideBuffer
  deriving DecidableEq, Repr

/-- Why an instruction has no meaning. -/
inductive Refusal where
  /-- Raised by `exec`'s refused arms only, for an instruction without a meaning; no arm is refused. Safe. -/
  | notModelled (mnemonic : String)
  deriving DecidableEq, Repr

/-- The state after reset (R36): every register 0, `PHASE = IDLE`, no cell of `DATA` known. The model's own fields
start at 0, empty and none (logs 3, 4, 9). -/
def State.reset : State where
  seed := 0#32
  len := 0#32
  dsize := 0#32
  result := 0#64
  done := false
  err := false
  var := false
  phase := 0#3
  cnt := 0#32
  h32 := 0#32
  h64 := 0#64
  data := []
  resets := 0
  turns := []
  reply := none

end Sys2Proof.Machine
end

