-- ==== Sys2Proof/Machine/Ops.lean ====
section
/-! DEFINITION. The named operations over the input buffer, the port's answers, the architectural error and reset (spec/10_state.md, spec/20_memory.md, spec/60_exceptions.md, spec/70_reset_and_hazards.md). -/

namespace Sys2Proof.Machine

/-! ### The buffer -/

/-- `BUF_BYTES`: some multiple of 8 with `8 <= BUF_BYTES <= 2^32 - 8`; every such value is taken for some
`Config.bufUnits` (R7, D6; log 1). -/
def bufBytes : Nat := Config.bufUnits % (2 ^ 29 - 1) * 8 + 8

/-- The byte written at offset `a`, if one has been written since reset. -/
def Memory.find : Memory → Nat → Option Byte
  | [], _ => none
  | (b, w) :: m, a => if a = b then some w else Memory.find m a

/-- Writing one byte, keeping the offsets strictly rising. -/
def Memory.put : Memory → Nat → Byte → Memory
  | [], a, v => [(a, v)]
  | (b, w) :: m, a, v =>
    if a < b then (a, v) :: (b, w) :: m
    else if a = b then (a, v) :: m
    else (b, w) :: Memory.put m a v

/-- The canonical form: offsets strictly rising. An unlisted offset has no known value, so no entry can equal one (log 13). -/
def Memory.wf : Memory → Bool
  | [] => true
  | [_] => true
  | (a, _) :: (b, w) :: m => decide (a < b) && Memory.wf ((b, w) :: m)

/-- `MemWrite(off, n, v)`: byte `j` gets `v[8j+7:8j]` (R10, R56). -/
def Memory.putBytes (m : Memory) (off : Nat) : Nat → Word → Memory
  | 0, _ => m
  | n + 1, v => Memory.putBytes (Memory.put m off (v.setWidth 8)) (off + 1) n (v >>> 8)

/-- The value of a cell nothing has written since reset: unspecified, stable until written (R36, R193, U1; log 2). -/
def unwrittenByte (epoch off : Nat) : Byte := Config.freeByte epoch off

/-- The cell of `DATA` at offset `off` (R32). -/
def State.dataByte (s : State) (off : Nat) : Byte :=
  (Memory.find s.data off).getD (unwrittenByte s.resets off)

/-- The read of an `n`-byte little-endian value, as a number (`MemRead`, R10, R52, R58). -/
def State.dataRead (s : State) (off n : Nat) : Nat := leNat s.dataByte off n

/-- A legal host write to `DATA` (R56). -/
def State.dataWrite (s : State) (off n : Nat) (v : Word) : State :=
  { s with data := Memory.putBytes s.data off n v }

/-- The bytes `off .. off+n-1` are cells of the buffer, `MemRead`'s requirement (R10); no bytes at all always are. -/
def inBuffer (off n : Nat) : Bool := decide (n = 0) || decide (off + n ≤ bufBytes)

/-- The sequencer's guard on a read: outside the buffer there is no cell (R10; log 8). -/
def guardRead (off n : Nat) (k : Host.Outcome State Fault Refusal) : Host.Outcome State Fault Refusal :=
  if inBuffer off n then k else .fault .readOutsideBuffer

/-! ### Answers of the host port -/

/-- A legal write: response `OKAY` (R54). -/
def State.okayWrite (s : State) : State :=
  { s with reply := some { resp := .okay, rdata := none, reason := none } }

/-- A legal read: response `OKAY` and its data (R54, R55, R58). -/
def State.okayRead (s : State) (v : Word) : State :=
  { s with reply := some { resp := .okay, rdata := some v, reason := none } }

/-- The data a refused transaction returns: 0 for a read, nothing for a write (R54). -/
def refusedData : Kind → Option Word
  | .read => some 0#32
  | .write _ => none

/-- A refusal: response `ERROR`, and no state changes (R54, R163). -/
def State.refuse (s : State) (rdata : Option Word) (r : Reason) : State :=
  { s with reply := some { resp := .error, rdata := rdata, reason := some r } }

/-! ### The architectural error and its end -/

/-- `raise Bounds()`: `ERR` is set and `PHASE` stays IDLE; nothing is saved and control goes nowhere (R101, R160, R161,
R166). There is no return: `ERR` falls at the next acceptance (`State.beginCommand`) or at reset (R167). -/
def State.raiseBounds (s : State) : State := { s with err := true }

/-- What every acceptance does first: `VAR`, `SEED`, `RESULT`, `DONE`, and the end of an earlier error (R101, R167). -/
def State.beginCommand (s : State) (var : Bool) (seed : Word) : State :=
  { s with var := var, seed := seed, result := 0#64, done := false, err := false }

/-! ### Reset -/

/-- The reset event (R190, R192, R193): everything but `DATA` to the values of R36, `DATA` unspecified anew. What the
environment does next is not the block's state and stays. The event has no duration (log 19). -/
def State.resetEvent (s : State) : State :=
  { State.reset with resets := s.resets + 1, turns := s.turns }

end Sys2Proof.Machine
end

