-- ==== Sys2Proof/Machine/Operands.lean ====
section
/-! DEFINITION. The operands of commands and micro-operations: the available size, the default seeds, groups and tail bytes, the sequencer's selector (spec/10_state.md R34, spec/40_commands.md R101, R106, spec/20_memory.md R60). -/

namespace Sys2Proof.Machine

/-- `AVAIL = min(DSIZE, BUF_BYTES)` (R23). -/
def State.avail (s : State) : Nat := min s.dsize.toNat bufBytes

/-- The bounds check of R106: `LEN > min(DSIZE, BUF_BYTES)`, unsigned. -/
def State.outOfBounds (s : State) : Bool := decide (s.avail < s.len.toNat)

/-- `VAR` as a bit: 1 for U64 (R38). -/
def HashUnit.bit : HashUnit → Bool
  | .u32 => false
  | .u64 => true

/-- The default seed of a unit (R103, R105). -/
def HashUnit.defaultSeed : HashUnit → Word
  | .u32 => defSeed32
  | .u64 => defSeed64

/-- The seed a command uses: the default one, or `SEED` as the host wrote it (R101). -/
def State.commandSeed (s : State) (u : HashUnit) (dflt : Bool) : Word :=
  if dflt then HashUnit.defaultSeed u else s.seed

/-- Offset of U32 group number `CNT`, as a number (R60). DEDUCED: without wrapping (log 15). -/
def State.groupOff32 (s : State) : Nat := 4 * s.cnt.toNat

/-- Offset of U64 group number `CNT`, as a number (R60). DEDUCED: without wrapping (log 15). -/
def State.groupOff64 (s : State) : Nat := 8 * s.cnt.toNat

/-- Tail byte `j` of `rem` at base `t`; an absent byte is not read and stands as 0 (R125, R145). -/
def State.tailByte (s : State) (t rem j : Nat) : Byte :=
  if j + 1 ≤ rem then s.dataByte (t + j) else 0#8

/-- The selector `{VAR, PHASE[2:0]}` (R84). -/
def State.selector (s : State) : BitVec 4 := selectorOf s.var s.phase

end Sys2Proof.Machine
end

