-- ==== Sys2Proof/Machine/Flags.lean ====
section
/-! DEFINITION. Phase codes, the flags and the registers a host reads (spec/10_state.md R24 to R26, R30, R31, R39; spec/20_memory.md R55). No arithmetic operation sets a flag (R25). -/

namespace Sys2Proof.Machine

/-- `IDLE` (R26). -/
abbrev phaseIdle : BitVec 3 := 0#3

/-- `INIT` (R26). -/
abbrev phaseInit : BitVec 3 := 1#3

/-- `BLOCK` (R26). -/
abbrev phaseBlock : BitVec 3 := 2#3

/-- `TAIL` (R26). -/
abbrev phaseTail : BitVec 3 := 3#3

/-- `FINAL` (R26). -/
abbrev phaseFinal : BitVec 3 := 4#3

/-- `BUSY = (PHASE != IDLE)`, not a stored bit (R25). -/
def State.busy (s : State) : Bool := s.phase != phaseIdle

/-- `STATUS` as assembled at the read: bits 3:0 are `VAR`, `ERR`, `DONE`, `BUSY`, the rest 0 (R25). -/
def State.status (s : State) : Word :=
  (0#28 ++ BitVec.ofBool s.var ++ BitVec.ofBool s.err ++ BitVec.ofBool s.done ++ BitVec.ofBool s.busy :
    BitVec (28 + 1 + 1 + 1 + 1))

/-- `RESULT_LO` (R24). -/
def State.resultLo (s : State) : Word := s.result.extractLsb' 0 32

/-- `RESULT_HI` (R24). -/
def State.resultHi (s : State) : Word := s.result.extractLsb' 32 32

/-- `CAP`, the constant `BUF_BYTES` (R31). -/
def capValue : Word := BitVec.ofNat 32 bufBytes

/-- A legal read of the REG space, by offset (R55). -/
def State.regRead (s : State) (off : Nat) : Word :=
  match off with
  | 0x04 => s.status
  | 0x08 => s.seed
  | 0x0C => s.len
  | 0x10 => s.dsize
  | 0x14 => s.resultLo
  | 0x18 => s.resultHi
  | 0x1C => capValue
  | _ => 0#32

/-- A legal write of an operand register, by offset (R57); `CMD` is a command and is treated apart. -/
def State.regWrite (s : State) (off : Nat) (v : Word) : State :=
  match off with
  | 0x08 => { s with seed := v }
  | 0x0C => { s with len := v }
  | 0x10 => { s with dsize := v }
  | _ => s

/-- The REG offsets that are read only: `STATUS`, `RESULT_LO`, `RESULT_HI`, `CAP` (R163). -/
def readOnlyReg (off : Nat) : Bool := off == 0x04 || off == 0x14 || off == 0x18 || off == 0x1C

end Sys2Proof.Machine
end

