-- ==== Sys2Proof/Machine/Commands.lean ====
section
/-! DEFINITION. The four host commands (spec/40_commands.md R101 to R106). -/

namespace Sys2Proof.Machine

/-- `Accept(u, d)` of R101: one atomic step. -/
def State.accept (s : State) (u : HashUnit) (dflt : Bool) : State :=
  let begun := s.beginCommand (HashUnit.bit u) (s.commandSeed u dflt)
  if s.outOfBounds then begun.raiseBounds.okayWrite
  else { begun with phase := phaseInit }.okayWrite

/-- A command word at the port: while a hash runs it is refused with `BUSY` and nothing changes (R68, R102 "Refusals");
else it is accepted (log 12). -/
def execCommand (u : HashUnit) (dflt : Bool) (s : State) : Host.Outcome State Fault Refusal :=
  if s.busy then .next (s.refuse none .busy)
  else .next (s.accept u dflt)

/-- R102. -/
def execHash32 (s : State) : Host.Outcome State Fault Refusal := execCommand .u32 false s

/-- R103. -/
def execHash32d (s : State) : Host.Outcome State Fault Refusal := execCommand .u32 true s

/-- R104. -/
def execHash64 (s : State) : Host.Outcome State Fault Refusal := execCommand .u64 false s

/-- R105. -/
def execHash64d (s : State) : Host.Outcome State Fault Refusal := execCommand .u64 true s

end Sys2Proof.Machine
end

