-- ==== Sys2Proof/Machine/Hash32.lean ====
section
/-! DEFINITION. The four micro-operations of U32 (spec/41_hash32_path.md R121, R123, R125, R127). Each meaning is the rule's pseudocode; the selection by `VAR` and `PHASE` is the sequencer's (R84; log 11). -/

namespace Sys2Proof.Machine

/-- R121. -/
def execInit32 (s : State) : Host.Outcome State Fault Refusal :=
  .next { s with
    h32 := init32 s.seed s.len
    cnt := 0#32
    phase := if nblk32 s.len ≠ 0#32 then phaseBlock else phaseTail }

/-- R123. -/
def execBlock32 (s : State) : Host.Outcome State Fault Refusal :=
  guardRead s.groupOff32 4 <|
    .next { s with
      h32 := mixBlock32 s.h32 (BitVec.ofNat 32 (s.dataRead s.groupOff32 4))
      cnt := s.cnt + 1#32
      phase := if s.cnt + 1#32 < nblk32 s.len then phaseBlock else phaseTail }

/-- R125. -/
def execTail32 (s : State) : Host.Outcome State Fault Refusal :=
  let rem := rem32 s.len
  let t := tailBase32 s.len
  guardRead t rem <|
    .next { s with
      h32 := tail32 s.h32 rem (s.tailByte t rem 0) (s.tailByte t rem 1) (s.tailByte t rem 2)
      phase := phaseFinal }

/-- R127. -/
def execFinal32 (s : State) : Host.Outcome State Fault Refusal :=
  let h := fmix32 s.h32
  .next { s with
    h32 := h
    result := h.setWidth 64
    done := true
    phase := phaseIdle }

end Sys2Proof.Machine
end

