-- ==== Sys2Proof/Machine/Hash64.lean ====
section
/-! DEFINITION. The four micro-operations of U64 (spec/42_hash64_path.md R141, R143, R145, R147). Each meaning is the rule's pseudocode; the selection by `VAR` and `PHASE` is the sequencer's (R84; log 11). -/

namespace Sys2Proof.Machine

/-- R141. -/
def execInit64 (s : State) : Host.Outcome State Fault Refusal :=
  .next { s with
    h64 := init64 s.seed s.len
    cnt := 0#32
    phase := if nblk64 s.len ≠ 0#32 then phaseBlock else phaseTail }

/-- R143. -/
def execBlock64 (s : State) : Host.Outcome State Fault Refusal :=
  guardRead s.groupOff64 8 <|
    .next { s with
      h64 := mixBlock64 s.h64 (BitVec.ofNat 64 (s.dataRead s.groupOff64 8))
      cnt := s.cnt + 1#32
      phase := if s.cnt + 1#32 < nblk64 s.len then phaseBlock else phaseTail }

/-- R145. -/
def execTail64 (s : State) : Host.Outcome State Fault Refusal :=
  let rem := rem64 s.len
  let t := tailBase64 s.len
  guardRead t rem <|
    .next { s with
      h64 := tail64 s.h64 rem (s.tailByte t rem 0) (s.tailByte t rem 1) (s.tailByte t rem 2) (s.tailByte t rem 3)
        (s.tailByte t rem 4) (s.tailByte t rem 5) (s.tailByte t rem 6)
      phase := phaseFinal }

/-- R147. -/
def execFinal64 (s : State) : Host.Outcome State Fault Refusal :=
  let h := fmix64 s.h64
  .next { s with
    h64 := h
    result := h
    done := true
    phase := phaseIdle }

end Sys2Proof.Machine
end

