-- ==== Sys2Proof/Machine/Dispatch.lean ====
section
/-! DEFINITION. One arm per instruction: its meaning. -/

namespace Sys2Proof.Machine

/-- The meaning of each instruction of spec/opcode_table.json. -/
def exec (i : Instr) (s : State) : Host.Outcome State Fault Refusal :=
  match i with
  | .hash32 => Sys2Proof.Machine.execHash32 s
  | .hash64 => Sys2Proof.Machine.execHash64 s
  | .hash32d => Sys2Proof.Machine.execHash32d s
  | .hash64d => Sys2Proof.Machine.execHash64d s
  | .init32 => Sys2Proof.Machine.execInit32 s
  | .block32 => Sys2Proof.Machine.execBlock32 s
  | .tail32 => Sys2Proof.Machine.execTail32 s
  | .final32 => Sys2Proof.Machine.execFinal32 s
  | .init64 => Sys2Proof.Machine.execInit64 s
  | .block64 => Sys2Proof.Machine.execBlock64 s
  | .tail64 => Sys2Proof.Machine.execTail64 s
  | .final64 => Sys2Proof.Machine.execFinal64 s

end Sys2Proof.Machine
end

