-- ==== Sys2Proof/Machine/HostPort.lean ====
section
/-! DEFINITION. The host port: refusals and their priority (spec/60_exceptions.md R163, R164) and the effects of legal transactions (spec/20_memory.md R54 to R58). -/

namespace Sys2Proof.Machine

/-- Legal sizes: 4 on REG, 1, 2 or 4 on DATA (R54 a). -/
def legalSize (sp : Space) (n : Nat) : Bool :=
  match sp with
  | .reg => n == 4
  | .data => n == 1 || n == 2 || n == 4

/-- The first byte offset past a space: `0x20` for REG, `BUF_BYTES` for DATA (R54 c). -/
def spaceEnd : Space → Nat
  | .reg => 0x20
  | .data => bufBytes

/-- The value is one of the four command words (R54 f, R82). -/
def legalCommand (w : Word) : Bool :=
  match decodeCommand w with
  | .ok _ => true
  | .error _ => false

/-- The reasons that concern writes only, in the order of R164. -/
def writeRefusal (t : Transaction) (v : Word) (s : State) : Option Reason :=
  if t.space = .reg ∧ readOnlyReg t.off then some .readOnly
  else if s.busy then some .busy
  else if t.space = .reg ∧ t.off = 0x00 ∧ legalCommand v = false then some .illegalCmd
  else none

/-- Why a transaction is refused, the first reason in the order of R164; `none` for a legal one. -/
def refusalOf (t : Transaction) (s : State) : Option Reason :=
  if legalSize t.space t.n = false then some .badSize
  else if t.off % t.n ≠ 0 then some .misaligned
  else if spaceEnd t.space < t.off + t.n then some .unmapped
  else
    match t.kind with
    | .read => none
    | .write v => writeRefusal t v s

/-- The data of a legal read (R55, R58). -/
def readValue (t : Transaction) (s : State) : Word :=
  match t.space with
  | .reg => s.regRead t.off
  | .data => BitVec.ofNat 32 (s.dataRead t.off t.n)

/-- A legal `CMD` write is command acceptance (R30, R57): the word is decoded and its instruction executed. -/
def commandWrite (v : Word) (s : State) : Host.Outcome State Fault Refusal :=
  match decodeCommand v with
  | .ok i => exec i s
  | .error _ => .next (s.refuse none .illegalCmd)

/-- The effect of a legal write (R56, R57). -/
def legalWrite (t : Transaction) (v : Word) (s : State) : Host.Outcome State Fault Refusal :=
  match t.space with
  | .data => .next (s.dataWrite t.off t.n v).okayWrite
  | .reg => if t.off = 0x00 then commandWrite v s else .next (s.regWrite t.off v).okayWrite

/-- One host transaction (R54). -/
def hostTransaction (t : Transaction) (s : State) : Host.Outcome State Fault Refusal :=
  match refusalOf t s with
  | some r => .next (s.refuse (refusedData t.kind) r)
  | none =>
    match t.kind with
    | .read => .next (s.okayRead (readValue t s))
    | .write v => legalWrite t v s

end Sys2Proof.Machine
end

