-- ==== Sys2Proof/Machine/Sequencer.lean ====
section
/-! DEFINITION. The sequencer's one enabled step (spec/30_encoding.md R84, spec/20_memory.md R66) and one turn of each agent (spec/00_scope.md R11). -/

namespace Sys2Proof.Machine

/-- A turn of the sequencer: the micro-operation its selector names; with no step enabled the turn passes (R84, R174;
log 6). -/
def sequencerTurn (s : State) : Host.Outcome State Fault Refusal :=
  match decodeSelector s.selector with
  | .ok i => exec i s
  | .error _ => .next s

/-- With nothing offered by the environment the sequencer moves, if it has a step (weak fairness, R66); else the block
has no step (R84, R172; log 5). -/
def sequencerAlone (s : State) : Host.Outcome State Fault Refusal :=
  match decodeSelector s.selector with
  | .ok i => exec i s
  | .error _ => .fault .noStep

/-- One atomic step of the agent whose turn it is (R11). -/
def takeTurn (t : Turn) (s : State) : Host.Outcome State Fault Refusal :=
  match t with
  | .host x => hostTransaction x s
  | .sequencer => sequencerTurn s
  | .reset => .next s.resetEvent

/-- The host's write of a command word (R30). -/
def cmdWrite (w : Word) : Turn := .host { space := .reg, kind := .write w, off := 0x00, n := 4 }

end Sys2Proof.Machine
end

