-- ==== Sys2Proof/Machine/Step.lean ====
section
/-! DEFINITION. One step of the block, runs of steps, and placing an instruction where the next step takes it. -/

namespace Sys2Proof.Machine

/-- One atomic step (R11, R64): the environment's next turn, or the sequencer's own when none is offered. -/
def step (s : State) : Host.Outcome State Fault Refusal :=
  match s.turns with
  | [] => sequencerAlone s
  | t :: rest => takeTurn t { s with turns := rest }

/-- `n` steps, stopping at the first that does not answer a next state. -/
def run : Nat → State → Host.Outcome State Fault Refusal
  | 0, s => .next s
  | n + 1, s =>
    match step s with
    | .next t => run n t
    | .fault f => .fault f
    | .refused r => .refused r

/-- `s` with an instruction's code placed where the next step takes it (log 14). A 32-bit command word: the host's next
transaction writes it to `CMD`, in the phase that accepts commands. A selector: `VAR` and `PHASE` hold it, and the turn
is the sequencer's. -/
def State.withFetchWord (s : State) (nbits w : Nat) : State :=
  if nbits = 32 then
    { s with phase := phaseIdle, turns := cmdWrite (BitVec.ofNat 32 w) :: s.turns }
  else
    { s with
      var := (BitVec.ofNat 4 w).getLsbD 3
      phase := (BitVec.ofNat 4 w).extractLsb' 0 3
      turns := .sequencer :: s.turns }

end Sys2Proof.Machine
end

