-- ==== Sys2Proof/Machine/Script.lean ====
section
/-! DEFINITION. The host-script notation (spec/30_encoding.md R87, R88): statements and pseudo-statements and the transactions they denote. It is a notation for what the host does, not a language the block interprets. -/

namespace Sys2Proof.Machine

/-- The register names of the notation (R87). -/
inductive RegName where
  | cmd
  | status
  | seed
  | len
  | dsize
  | resultLo
  | resultHi
  | cap
  deriving DecidableEq, Repr

/-- The register map (R39). -/
def regOffset : RegName → Nat
  | .cmd => 0x00
  | .status => 0x04
  | .seed => 0x08
  | .len => 0x0C
  | .dsize => 0x10
  | .resultLo => 0x14
  | .resultHi => 0x18
  | .cap => 0x1C

/-- The statements of R87. `cmd` names a command by its unit and its default-seed bit. -/
inductive Stmt where
  | wr (r : RegName) (v : Word)
  | rd (r : RegName)
  | wb (off : Nat) (v : BitVec 8)
  | wh (off : Nat) (v : BitVec 16)
  | ww (off : Nat) (v : BitVec 32)
  | rb (off : Nat)
  | rh (off : Nat)
  | rw (off : Nat)
  | cmd (u : HashUnit) (dflt : Bool)
  | reset
  deriving DecidableEq, Repr

/-- The field `U` of a unit (R80). -/
def unitField : HashUnit → BitVec 2
  | .u32 => 0b01#2
  | .u64 => 0b10#2

/-- The transaction, or the reset event, that a statement denotes (R87). -/
def stmtTurn : Stmt → Turn
  | .wr r v => .host { space := .reg, kind := .write v, off := regOffset r, n := 4 }
  | .rd r => .host { space := .reg, kind := .read, off := regOffset r, n := 4 }
  | .wb off v => .host { space := .data, kind := .write (v.setWidth 32), off := off, n := 1 }
  | .wh off v => .host { space := .data, kind := .write (v.setWidth 32), off := off, n := 2 }
  | .ww off v => .host { space := .data, kind := .write v, off := off, n := 4 }
  | .rb off => .host { space := .data, kind := .read, off := off, n := 1 }
  | .rh off => .host { space := .data, kind := .read, off := off, n := 2 }
  | .rw off => .host { space := .data, kind := .read, off := off, n := 4 }
  | .cmd u dflt => cmdWrite (commandWord dflt (unitField u))
  | .reset => .reset

/-- `wait`: `polls` reads of `STATUS`; their number is not fixed (R88, R203; log 17). -/
def stmtWait (polls : Nat) : List Stmt := List.replicate polls (.rd .status)

/-- `load off, b0 b1 ...` (R88). -/
def stmtLoad (off : Nat) : List (BitVec 8) → List Stmt
  | [] => []
  | b :: bs => .wb off b :: stmtLoad (off + 1) bs

/-- `hash32 seed, len` (R88). -/
def stmtHash32 (seed len : Word) (polls : Nat) : List Stmt :=
  [.wr .seed seed, .wr .len len, .cmd .u32 false] ++ stmtWait polls ++ [.rd .status, .rd .resultLo]

/-- `hash32d len` (R88). -/
def stmtHash32d (len : Word) (polls : Nat) : List Stmt :=
  [.wr .len len, .cmd .u32 true] ++ stmtWait polls ++ [.rd .status, .rd .resultLo]

/-- `hash64 seed, len` (R88). -/
def stmtHash64 (seed len : Word) (polls : Nat) : List Stmt :=
  [.wr .seed seed, .wr .len len, .cmd .u64 false] ++ stmtWait polls ++ [.rd .status, .rd .resultLo, .rd .resultHi]

/-- `hash64d len` (R88). -/
def stmtHash64d (len : Word) (polls : Nat) : List Stmt :=
  [.wr .len len, .cmd .u64 true] ++ stmtWait polls ++ [.rd .status, .rd .resultLo, .rd .resultHi]

end Sys2Proof.Machine
end

