-- ==== Sys2Proof/Safety.lean ====
section
/-! DEFINITION. What claims are stated in: the legality of a transaction as the spec words it, the machine invariant, the value a running hash must hold, and safe runs. -/

namespace Sys2Proof.Machine

/-- A legal transaction, clause by clause as R54 (a) to (f), independent of the refusal order of R164. -/
def LegalTransaction (t : Transaction) (s : State) : Prop :=
  (t.space = .reg → t.n = 4) ∧
  (t.space = .data → t.n = 1 ∨ t.n = 2 ∨ t.n = 4) ∧
  t.off % t.n = 0 ∧
  (t.space = .reg → t.off + 4 ≤ 0x20) ∧
  (t.space = .data → t.off + t.n ≤ bufBytes) ∧
  ∀ v, t.kind = .write v →
    (t.space = .reg → t.off = 0x00 ∨ t.off = 0x08 ∨ t.off = 0x0C ∨ t.off = 0x10) ∧
    s.phase = phaseIdle ∧
    (t.space = .reg → t.off = 0x00 →
      v = 0x00000001#32 ∨ v = 0x00000002#32 ∨ v = 0x00000005#32 ∨ v = 0x00000006#32)

/-- The condition of each refusal reason by itself, as the table of R163 words it. -/
def reasonApplies (t : Transaction) (s : State) : Reason → Prop
  | .badSize => (t.space = .reg ∧ t.n ≠ 4) ∨ (t.space = .data ∧ ¬(t.n = 1 ∨ t.n = 2 ∨ t.n = 4))
  | .misaligned => t.off % t.n ≠ 0
  | .unmapped => (t.space = .reg ∧ 0x20 < t.off + t.n) ∨ (t.space = .data ∧ bufBytes < t.off + t.n)
  | .readOnly => (∃ v, t.kind = .write v) ∧ t.space = .reg ∧ (t.off = 0x04 ∨ t.off = 0x14 ∨ t.off = 0x18 ∨ t.off = 0x1C)
  | .busy => (∃ v, t.kind = .write v) ∧ s.phase ≠ phaseIdle
  | .illegalCmd => ∃ v, t.kind = .write v ∧ t.space = .reg ∧ t.off = 0x00 ∧
      v ≠ 0x00000001#32 ∧ v ≠ 0x00000002#32 ∧ v ≠ 0x00000005#32 ∧ v ≠ 0x00000006#32

/-- The place of a reason in the priority order of R164, first is 0. -/
def reasonRank : Reason → Nat
  | .badSize => 0
  | .misaligned => 1
  | .unmapped => 2
  | .readOnly => 3
  | .busy => 4
  | .illegalCmd => 5

/-- The four commands, by unit and default-seed bit (R82). -/
def commandInstr : HashUnit → Bool → Instr
  | .u32, false => .hash32
  | .u32, true => .hash32d
  | .u64, false => .hash64
  | .u64, true => .hash64d

/-- Their words (R82). -/
def commandCode : HashUnit → Bool → Word
  | .u32, false => 0x00000001#32
  | .u32, true => 0x00000005#32
  | .u64, false => 0x00000002#32
  | .u64, true => 0x00000006#32

/-- `NBLK` of a unit (R120, R140). -/
def groupCount (u : HashUnit) (len : Word) : Nat :=
  match u with
  | .u32 => len.toNat / 4
  | .u64 => len.toNat / 8

/-- What `RESULT` holds after a hash (R129, R149). -/
def hashValue (u : HashUnit) (d : Nat → Byte) (len seed : Word) : DWord :=
  match u with
  | .u32 => (mh32 d len seed).setWidth 64
  | .u64 => mh64 d len seed

/-- Exactly one of `BUSY`, `DONE`, `ERR` is 1 (R33). -/
def State.oneFlag (s : State) : Prop :=
  (s.busy = true ∧ s.done = false ∧ s.err = false) ∨ (s.busy = false ∧ s.done = true ∧ s.err = false) ∨
  (s.busy = false ∧ s.done = false ∧ s.err = true)

/-- A turn of the sequencer or a host read: what may stand between acceptance and `DONE` in R129 and R149. -/
def Turn.quiet : Turn → Bool
  | .host t => t.kind == .read
  | .sequencer => true
  | .reset => false

/-- How many of these turns are the sequencer's. -/
def seqTurns : List Turn → Nat
  | [] => 0
  | .sequencer :: us => seqTurns us + 1
  | _ :: us => seqTurns us

/-- The invariant of the block's reachable states. -/
structure State.Inv (s : State) : Prop where
  /-- The buffer keeps its canonical form (log 13). -/
  memWf : Memory.wf s.data = true
  /-- Only cells of the buffer are ever written (R54 c, R56). -/
  memIn : ∀ c ∈ s.data, c.1 < bufBytes
  /-- `PHASE` codes 5, 6, 7 are never entered (R26, R85). -/
  phaseLegal : s.phase.toNat ≤ 4
  /-- At most one of `BUSY`, `DONE`, `ERR` is 1 (R33). -/
  busyAlone : s.busy = true → s.done = false ∧ s.err = false
  /-- At most one of `DONE`, `ERR` is 1 (R33). -/
  doneAlone : s.done = true → s.err = false
  /-- `RESULT` holds a hash value only with `DONE` (R24, R195). -/
  resultZero : s.done = false → s.result = 0#64
  /-- After a 32-bit hash `RESULT` is the accumulator, zero-extended (R24, R127). -/
  result32 : s.done = true → s.var = false → s.result = s.h32.setWidth 64
  /-- After a 64-bit hash `RESULT` is the accumulator (R24, R147). -/
  result64 : s.done = true → s.var = true → s.result = s.h64
  /-- A running hash passed the bounds check (R106, R68). -/
  inBounds : s.busy = true → s.len.toNat ≤ s.avail
  /-- `CNT < NBLK` while `PHASE = BLOCK` (R27). -/
  block32 : s.phase = phaseBlock → s.var = false → s.cnt < nblk32 s.len
  block64 : s.phase = phaseBlock → s.var = true → s.cnt < nblk64 s.len
  /-- All groups are consumed when the tail is reached (R120, R140). -/
  tail32 : s.phase = phaseTail ∨ s.phase = phaseFinal → s.var = false → s.cnt = nblk32 s.len
  tail64 : s.phase = phaseTail ∨ s.phase = phaseFinal → s.var = true → s.cnt = nblk64 s.len

/-- The tail of U32 applied to an accumulator, over the buffer's bytes (R128). -/
def State.tailed32 (s : State) (h : Word) : Word :=
  let t := tailBase32 s.len
  Machine.tail32 h (rem32 s.len) (s.dataByte t) (s.dataByte (t + 1)) (s.dataByte (t + 2))

/-- The tail of U64 applied to an accumulator, over the buffer's bytes (R148). -/
def State.tailed64 (s : State) (h : DWord) : DWord :=
  let t := tailBase64 s.len
  Machine.tail64 h (rem64 s.len) (s.dataByte t) (s.dataByte (t + 1)) (s.dataByte (t + 2)) (s.dataByte (t + 3))
    (s.dataByte (t + 4)) (s.dataByte (t + 5)) (s.dataByte (t + 6))

/-- While a hash runs, the accumulator is the value the closed forms of R128 and R148 have at that point. -/
structure State.HashInv (s : State) : Prop where
  loop32 : s.var = false → s.phase = phaseBlock ∨ s.phase = phaseTail →
    s.h32 = blocks32 s.dataByte (Machine.init32 s.seed s.len) s.cnt.toNat
  loop64 : s.var = true → s.phase = phaseBlock ∨ s.phase = phaseTail →
    s.h64 = blocks64 s.dataByte (Machine.init64 s.seed s.len) s.cnt.toNat
  final32 : s.var = false → s.phase = phaseFinal →
    s.h32 = s.tailed32 (blocks32 s.dataByte (Machine.init32 s.seed s.len) (nblk32 s.len).toNat)
  final64 : s.var = true → s.phase = phaseFinal →
    s.h64 = s.tailed64 (blocks64 s.dataByte (Machine.init64 s.seed s.len) (nblk64 s.len).toNat)

/-- A safe run: in no number of steps does the sequencer ask for a byte outside the buffer (R62, R162). Waiting for the
host (`Fault.noStep`) is no failure. -/
def State.SafeRuns (s : State) : Prop := ∀ n, run n s ≠ .fault .readOutsideBuffer

end Sys2Proof.Machine
end

