-- ==== Sys2Proof/Certificates/Slice0/Obligations.lean ====
section
/-! DEFINITION. The statements for the provers. Each formalises rules of spec/, named in its docstring. -/

open Sys2Proof Sys2Proof.Machine

/-! ### Reset -/

/-- R36: after reset every register is 0, the phase is IDLE, `STATUS` reads 0, and every cell of `DATA` is unspecified. How
the model says that is its choice (log 2): a cell that nothing has written since reset number `resets` reads as a
constant without a body, stable until the cell is written. -/
def Obligations.ResetStateIsZeroIdleAndDataFree : Prop :=
  State.reset.seed = 0x00000000#32 ∧ State.reset.len = 0x00000000#32 ∧ State.reset.dsize = 0x00000000#32 ∧
  State.reset.result = 0x0000000000000000#64 ∧ State.reset.done = false ∧ State.reset.err = false ∧
  State.reset.var = false ∧ State.reset.phase = 0#3 ∧ State.reset.status = 0x00000000#32 ∧
  State.reset.cnt = 0x00000000#32 ∧ State.reset.h32 = 0x00000000#32 ∧ State.reset.h64 = 0x0000000000000000#64 ∧
  (∀ off, State.reset.dataByte off = Config.freeByte State.reset.resets off) ∧
  ∀ (s : State) (off : Nat), (∀ c ∈ s.data, c.1 ≠ off) → s.dataByte off = Config.freeByte s.resets off

/-- R190, R192, R193: the reset event, from any state, also during a hash: every register as R36, neither `DONE` nor
`ERR`, and every cell of `DATA` unspecified anew (the free value of a new epoch, log 2). -/
def Obligations.ResetEventAbandonsEverything : Prop :=
  ∀ (s : State) (rest : List Turn), s.turns = .reset :: rest →
    ∃ t, step s = .next t ∧
      t.seed = 0#32 ∧ t.len = 0#32 ∧ t.dsize = 0#32 ∧ t.result = 0#64 ∧ t.done = false ∧ t.err = false ∧
      t.var = false ∧ t.phase = 0#3 ∧ t.cnt = 0#32 ∧ t.h32 = 0#32 ∧ t.h64 = 0#64 ∧
      t.turns = rest ∧ t.resets = s.resets + 1 ∧ ∀ off, t.dataByte off = Config.freeByte (s.resets + 1) off

/-! ### Encoding -/

/-- R82 to R85: a code decodes to an instruction exactly when it is that instruction's encoding; so decoding undoes
encoding, and no other code stands for an instruction. -/
def Obligations.DecodeIsInverseOfEncode : Prop :=
  ∀ (c : Code) (i : Instr), decode c = .ok i ↔ c = encode i

/-- R82: the four legal command words, compared over all 32 bits, and what each stands for. -/
def Obligations.FourCommandWordsAndNoOther : Prop :=
  decodeCommand 0x00000001#32 = .ok .hash32 ∧ decodeCommand 0x00000002#32 = .ok .hash64 ∧
  decodeCommand 0x00000005#32 = .ok .hash32d ∧ decodeCommand 0x00000006#32 = .ok .hash64d ∧
  ∀ w : Word, w ≠ 0x00000001#32 → w ≠ 0x00000002#32 → w ≠ 0x00000005#32 → w ≠ 0x00000006#32 →
    decodeCommand w = .error .reservedCommand

/-- R83: a `CMD` write of a reserved value is refused and changes no state of the block; in particular `ERR` is not set and
no hash starts. The reason is `ILLEGAL_CMD`, unless a hash runs: then `BUSY` comes first (R164). -/
def Obligations.ReservedCommandWordIsRefused : Prop :=
  ∀ (s : State) (w : Word) (rest : List Turn),
    s.turns = .host { space := .reg, kind := .write w, off := 0x00, n := 4 } :: rest →
    w ≠ 0x00000001#32 → w ≠ 0x00000002#32 → w ≠ 0x00000005#32 → w ≠ 0x00000006#32 →
    step s = .next { s with
      turns := rest
      reply := some
        { resp := .error, rdata := none, reason := some (if s.phase = phaseIdle then .illegalCmd else .busy) } }

/-- A sanity statement: words and selectors written out bit by bit from the rows of R82 and R84 decode to what they
stand for, and those of no row do not decode (R83, R85). -/
def Obligations.CodesWrittenOutDecode : Prop :=
  decode (.cmdw 0b00000000000000000000000000000001#32) = .ok .hash32 ∧
  decode (.cmdw 0b00000000000000000000000000000110#32) = .ok .hash64d ∧
  decode (.cmdw 0b10000000000000000000000000000001#32) = .error .reservedCommand ∧
  decode (.ustep 0b0001#4) = .ok .init32 ∧ decode (.ustep 0b0100#4) = .ok .final32 ∧
  decode (.ustep 0b1010#4) = .ok .block64 ∧ decode (.ustep 0b1011#4) = .ok .tail64 ∧
  decode (.ustep 0b1000#4) = .error .idleSelector ∧ decode (.ustep 0b1101#4) = .error .unreachableSelector

/-- R84: the sequencer's one step, selected by `VAR` and `PHASE`, whether the host is silent or it is the sequencer's own
turn among the host's (`s'` is the state without that turn); `PHASE = IDLE` selects nothing. -/
def Obligations.VarAndPhaseSelectTheStep : Prop :=
  (∀ s s' : State,
    (s.turns = [] ∧ s' = s) ∨ (∃ rest, s.turns = .sequencer :: rest ∧ s' = { s with turns := rest }) →
    (s.var = false → s.phase = 1#3 → step s = exec .init32 s') ∧
    (s.var = false → s.phase = 2#3 → step s = exec .block32 s') ∧
    (s.var = false → s.phase = 3#3 → step s = exec .tail32 s') ∧
    (s.var = false → s.phase = 4#3 → step s = exec .final32 s') ∧
    (s.var = true → s.phase = 1#3 → step s = exec .init64 s') ∧
    (s.var = true → s.phase = 2#3 → step s = exec .block64 s') ∧
    (s.var = true → s.phase = 3#3 → step s = exec .tail64 s') ∧
    (s.var = true → s.phase = 4#3 → step s = exec .final64 s')) ∧
  ∀ (s : State) (i : Instr), s.phase = 0#3 → decode (.ustep s.selector) ≠ .ok i

/-- R85, R174: a state with `PHASE` 5, 6 or 7 has no sequencer step (alone it stops, log 5; a turn of the sequencer
passes, log 6), refuses every host write, with `BUSY` if nothing else is wrong with it, and only reset leaves it; no run
from reset reaches one. -/
def Obligations.UnreachablePhasesAreStuck : Prop :=
  (∀ s : State, 5 ≤ s.phase.toNat →
    (s.turns = [] → step s = .fault .noStep) ∧
    (∀ rest, s.turns = .sequencer :: rest → step s = .next { s with turns := rest }) ∧
    (∀ x v rest, s.turns = .host x :: rest → x.kind = .write v →
      ∃ r, (LegalTransaction x { s with phase := phaseIdle } → r = .busy) ∧ step s = .next { s with
        turns := rest, reply := some { resp := .error, rdata := none, reason := some r } }) ∧
    (∀ t, step s = .next t → (∀ rest, s.turns ≠ .reset :: rest) → t.phase = s.phase) ∧
    (∀ rest, s.turns = .reset :: rest → ∃ t, step s = .next t ∧ t.phase = phaseIdle)) ∧
  ∀ (us : List Turn) (n : Nat) (t : State), run n { State.reset with turns := us } = .next t → t.phase.toNat ≤ 4

/-- The idle block waits: with nothing offered by the environment it has no step, and a turn given to the sequencer
passes without effect. The spec says that the idle sequencer has no step; how a step of the model says so is the model's
choice (logs 5, 6). -/
def Obligations.IdleBlockWaitsForTheHost : Prop :=
  ∀ s : State, s.phase = phaseIdle →
    (s.turns = [] → step s = .fault .noStep) ∧
    (∀ rest, s.turns = .sequencer :: rest → step s = .next { s with turns := rest })

/-- A step runs the instruction it decodes: the micro-operation its selector decodes to, with the host silent or at the
sequencer's turn, and the command a `CMD` write of a decodable word carries, in the idle block. What the step adds
around the instruction is the consumed turn. -/
def Obligations.StepRunsTheDecodedInstruction : Prop :=
  ∀ (s : State) (i : Instr) (rest : List Turn),
    (decode (.ustep s.selector) = .ok i → s.turns = [] → step s = exec i s) ∧
    (decode (.ustep s.selector) = .ok i → s.turns = .sequencer :: rest → step s = exec i { s with turns := rest }) ∧
    (∀ w, decode (.cmdw w) = .ok i → s.phase = phaseIdle →
      s.turns = .host { space := .reg, kind := .write w, off := 0x00, n := 4 } :: rest →
      step s = exec i { s with turns := rest })

/-- The model's placing of an instruction (log 14): the very next step after `withFetchWord` runs the instruction the
table word decodes to, and placing it changes only the turns, `PHASE`, and `VAR` for a selector. -/
def Obligations.PlacedTableWordRunsNext : Prop :=
  ∀ (s : State) (nbits w : Nat) (i : Instr), decodeTableWord nbits w = some i →
    ∃ v p, step (s.withFetchWord nbits w) = exec i { s with var := v, phase := p } ∧
      (nbits = 32 → v = s.var ∧ p = phaseIdle) ∧ (nbits ≠ 32 → selectorOf v p = BitVec.ofNat 4 w)

/-! ### The host port -/

/-- R54: a legal transaction is answered `OKAY`; one that is not legal is answered `ERROR`, a refused read returns 0,
and no state of the block changes. -/
def Obligations.LegalIsOkayAndIllegalChangesNothing : Prop :=
  ∀ (s : State) (x : Transaction) (rest : List Turn), s.turns = .host x :: rest →
    (LegalTransaction x s → ∃ t rep, step s = .next t ∧ t.reply = some rep ∧ rep.resp = .okay ∧
      (x.kind = .read → rep.rdata ≠ none)) ∧
    (¬ LegalTransaction x s → ∃ r, step s = .next { s with
      turns := rest
      reply := some
        { resp := .error
          rdata := if x.kind = .read then some 0#32 else none
          reason := some r } })

/-- R163, R164: the reason of a refusal is the one that applies and comes first in the order BAD_SIZE, MISALIGNED,
UNMAPPED, READ_ONLY, BUSY, ILLEGAL_CMD; with none that applies there is no refusal; a refused transaction answers
`ERROR`, a read with data 0, and no state of the block changes. -/
def Obligations.RefusalIsFirstApplicableReason : Prop :=
  ∀ (x : Transaction) (s : State),
    (∀ r, refusalOf x s = some r ↔
      reasonApplies x s r ∧ ∀ r', reasonApplies x s r' → reasonRank r ≤ reasonRank r') ∧
    (refusalOf x s = none ↔ ∀ r, ¬ reasonApplies x s r) ∧
    (∀ r rest, refusalOf x s = some r → s.turns = .host x :: rest → step s = .next { s with
      turns := rest
      reply := some
        { resp := .error
          rdata := if x.kind = .read then some 0#32 else none
          reason := some r } })

/-- R55: what a legal read of the REG space returns, by offset, in every phase; it changes no state of the block. -/
def Obligations.RegisterReadsReturnTheirValue : Prop :=
  ∀ (s : State) (off : Nat) (rest : List Turn),
    s.turns = .host { space := .reg, kind := .read, off := off, n := 4 } :: rest →
    (∀ v, (off = 0x00 ∧ v = 0#32) ∨ (off = 0x04 ∧ v = s.status) ∨ (off = 0x08 ∧ v = s.seed) ∨
        (off = 0x0C ∧ v = s.len) ∨ (off = 0x10 ∧ v = s.dsize) ∨ (off = 0x14 ∧ v = s.result.extractLsb' 0 32) ∨
        (off = 0x18 ∧ v = s.result.extractLsb' 32 32) ∨ (off = 0x1C ∧ v.toNat = bufBytes) →
      step s = .next { s with turns := rest, reply := some { resp := .okay, rdata := some v, reason := none } })

/-- `STATUS` bit by bit (R25): `BUSY`, `DONE`, `ERR`, `VAR`, and bits 31:4 read 0. -/
def Obligations.StatusBitsAreTheFlags : Prop :=
  ∀ s : State,
    (s.status.getLsbD 0 = true ↔ s.phase ≠ phaseIdle) ∧ s.status.getLsbD 1 = s.done ∧ s.status.getLsbD 2 = s.err ∧
    s.status.getLsbD 3 = s.var ∧ ∀ i, 4 ≤ i → s.status.getLsbD i = false

/-- R58: a legal read of the DATA space, in any phase, returns the little-endian sum of its cells' values, whatever those
are, and changes no state. -/
def Obligations.DataReadsAreLittleEndianSums : Prop :=
  ∀ (s : State) (off n : Nat) (rest : List Turn),
    s.turns = .host { space := .data, kind := .read, off := off, n := n } :: rest →
    (n = 1 ∨ n = 2 ∨ n = 4) → off % n = 0 → off + n ≤ bufBytes →
    ∃ v : Word, v.toNat = ∑ j ∈ Finset.range n, (s.dataByte (off + j)).toNat * 2 ^ (8 * j) ∧
      step s = .next { s with turns := rest, reply := some { resp := .okay, rdata := some v, reason := none } }

/-- R57: a legal write of the REG space, by offset: `SEED`, `LEN`, `DSIZE` take the value and nothing else changes;
a legal word at `CMD` is command acceptance; while a hash runs none of these is possible. -/
def Obligations.RegisterWritesChangeOneRegister : Prop :=
  ∀ (s : State) (off : Nat) (v : Word) (rest : List Turn),
    s.turns = .host { space := .reg, kind := .write v, off := off, n := 4 } :: rest →
    (s.phase ≠ phaseIdle → off = 0x00 ∨ off = 0x08 ∨ off = 0x0C ∨ off = 0x10 → step s = .next { s with
      turns := rest, reply := some { resp := .error, rdata := none, reason := some .busy } }) ∧
    (s.phase = phaseIdle → off = 0x08 → step s = .next { s with
      seed := v, turns := rest, reply := some { resp := .okay, rdata := none, reason := none } }) ∧
    (s.phase = phaseIdle → off = 0x0C → step s = .next { s with
      len := v, turns := rest, reply := some { resp := .okay, rdata := none, reason := none } }) ∧
    (s.phase = phaseIdle → off = 0x10 → step s = .next { s with
      dsize := v, turns := rest, reply := some { resp := .okay, rdata := none, reason := none } }) ∧
    (s.phase = phaseIdle → off = 0x00 → ∀ u d, v = commandCode u d →
      step s = .next (({ s with turns := rest } : State).accept u d))

/-- R56: a legal write of the DATA space stores byte `j` of the value at offset `off + j`, for `j < n`; every other byte
of `DATA` reads as before and nothing else of the block changes. While a hash runs it is not possible. -/
def Obligations.DataWritesStoreTheirBytesOnly : Prop :=
  ∀ (s : State) (off n : Nat) (v : Word) (rest : List Turn),
    s.turns = .host { space := .data, kind := .write v, off := off, n := n } :: rest →
    (n = 1 ∨ n = 2 ∨ n = 4) → off % n = 0 → off + n ≤ bufBytes →
    (s.phase = phaseIdle → ∃ m : Memory,
      step s = .next { s with
        data := m, turns := rest, reply := some { resp := .okay, rdata := none, reason := none } } ∧
      (∀ j, j < n → ({ s with data := m } : State).dataByte (off + j) = v.extractLsb' (8 * j) 8) ∧
      (∀ a, a < off ∨ off + n ≤ a → ({ s with data := m } : State).dataByte a = s.dataByte a)) ∧
    (s.phase ≠ phaseIdle → step s = .next { s with
      turns := rest, reply := some { resp := .error, rdata := none, reason := some .busy } })

/-- R53: the byte order of the port. A word written is read back as the same word, its bytes lie lowest first, and four
byte writes read back as the word they make. -/
def Obligations.MixedWidthAccessesSeeTheSameBytes : Prop :=
  ∀ (s : State) (off : Nat) (v : Word) (rest : List Turn),
    s.phase = phaseIdle → off % 4 = 0 → off + 4 ≤ bufBytes →
    (s.turns = stmtTurn (.ww off v) :: stmtTurn (.rw off) :: rest →
      ∃ t, run 2 s = .next t ∧ t.reply = some { resp := .okay, rdata := some v, reason := none }) ∧
    (∀ j, j < 4 → s.turns = stmtTurn (.ww off v) :: stmtTurn (.rb (off + j)) :: rest →
      ∃ t, run 2 s = .next t ∧
        t.reply = some { resp := .okay, rdata := some ((v.extractLsb' (8 * j) 8).setWidth 32), reason := none }) ∧
    (s.turns = (stmtLoad off [v.extractLsb' 0 8, v.extractLsb' 8 8, v.extractLsb' 16 8, v.extractLsb' 24 8]).map
        stmtTurn ++ stmtTurn (.rw off) :: rest →
      ∃ t, run 5 s = .next t ∧ t.reply = some { resp := .okay, rdata := some v, reason := none })

/-- R68: while a hash runs every host write is refused and changes nothing of the block; a write that nothing else is
wrong with is refused with reason `BUSY`. -/
def Obligations.WritesWhileBusyAreRefused : Prop :=
  ∀ (s : State) (x : Transaction) (v : Word) (rest : List Turn),
    s.phase ≠ phaseIdle → s.turns = .host x :: rest → x.kind = .write v →
    (∃ r, step s = .next { s with
      turns := rest, reply := some { resp := .error, rdata := none, reason := some r } }) ∧
    (LegalTransaction x { s with phase := phaseIdle } → step s = .next { s with
      turns := rest, reply := some { resp := .error, rdata := none, reason := some .busy } })

/-- R61: no read, legal or refused, in any phase, changes any state of the block. -/
def Obligations.ReadsHaveNoSideEffect : Prop :=
  ∀ (s : State) (x : Transaction) (rest : List Turn), s.turns = .host x :: rest → x.kind = .read →
    ∃ rep, step s = .next { s with turns := rest, reply := some rep }

/-- R35: no host transaction returns `PHASE`, `CNT`, `H32` or `H64`: two states that agree on everything a host may
see, and on whether a hash runs, answer every read alike. -/
def Obligations.HiddenRegistersCannotBeRead : Prop :=
  ∀ (s₁ s₂ t₁ t₂ : State) (x : Transaction) (rest : List Turn),
    s₁.turns = .host x :: rest → s₂.turns = .host x :: rest → x.kind = .read →
    s₁.seed = s₂.seed → s₁.len = s₂.len → s₁.dsize = s₂.dsize → s₁.result = s₂.result → s₁.done = s₂.done →
    s₁.err = s₂.err → s₁.var = s₂.var → (s₁.phase = phaseIdle ↔ s₂.phase = phaseIdle) →
    (∀ a, s₁.dataByte a = s₂.dataByte a) →
    step s₁ = .next t₁ → step s₂ = .next t₂ → t₁.reply = t₂.reply

/-! ### Commands -/

/-- R101: acceptance of each of the four commands in an idle block. Within bounds: in one step `VAR`, `SEED` (the default
seed if the command says so), `RESULT`, `DONE` and `ERR` are written, `PHASE` becomes INIT, the answer is `OKAY`, and
nothing else changes. With `LEN > min(DSIZE, BUF_BYTES)` the same, but `ERR` is set and `PHASE` stays IDLE. A 4-byte write
of a command's word at REG offset 0x00 has exactly that effect. -/
def Obligations.CommandAcceptanceWritesExactlyThese : Prop :=
  ∀ s : State, s.phase = phaseIdle →
    (∀ u d rest, s.turns = cmdWrite (commandCode u d) :: rest →
      step s = exec (commandInstr u d) { s with turns := rest }) ∧
    (s.len.toNat ≤ min s.dsize.toNat bufBytes →
      exec .hash32 s = .next { s with
        var := false, result := 0#64, done := false, err := false, phase := phaseInit
        reply := some { resp := .okay, rdata := none, reason := none } } ∧
      exec .hash32d s = .next { s with
        var := false, seed := 0x9747b28c#32, result := 0#64, done := false, err := false, phase := phaseInit
        reply := some { resp := .okay, rdata := none, reason := none } } ∧
      exec .hash64 s = .next { s with
        var := true, result := 0#64, done := false, err := false, phase := phaseInit
        reply := some { resp := .okay, rdata := none, reason := none } } ∧
      exec .hash64d s = .next { s with
        var := true, seed := 0xe17a1465#32, result := 0#64, done := false, err := false, phase := phaseInit
        reply := some { resp := .okay, rdata := none, reason := none } }) ∧
    (min s.dsize.toNat bufBytes < s.len.toNat →
      exec .hash32 s = .next { s with
        var := false, result := 0#64, done := false, err := true
        reply := some { resp := .okay, rdata := none, reason := none } } ∧
      exec .hash32d s = .next { s with
        var := false, seed := 0x9747b28c#32, result := 0#64, done := false, err := true
        reply := some { resp := .okay, rdata := none, reason := none } } ∧
      exec .hash64 s = .next { s with
        var := true, result := 0#64, done := false, err := true
        reply := some { resp := .okay, rdata := none, reason := none } } ∧
      exec .hash64d s = .next { s with
        var := true, seed := 0xe17a1465#32, result := 0#64, done := false, err := true
        reply := some { resp := .okay, rdata := none, reason := none } })

/-- R161: the state after the bounds error, for a `CMD` write of each command with `LEN > min(DSIZE, BUF_BYTES)`: `ERR`
is 1, `DONE` 0, `RESULT` 0, `PHASE` IDLE, `VAR` the unit, `SEED` the default seed for a default-seed command and else
unchanged; everything else is unchanged and no micro-operation has run. -/
def Obligations.BoundsErrorLeavesThisState : Prop :=
  ∀ (s : State) (u : HashUnit) (d : Bool) (rest : List Turn),
    s.phase = phaseIdle → min s.dsize.toNat bufBytes < s.len.toNat → s.turns = cmdWrite (commandCode u d) :: rest →
    ∃ t, step s = .next t ∧ t.err = true ∧ t.done = false ∧ t.result = 0#64 ∧ t.phase = phaseIdle ∧ t.busy = false ∧
      (t.var = true ↔ u = .u64) ∧
      t.seed = (match u, d with
        | .u32, true => 0x9747b28c#32
        | .u64, true => 0xe17a1465#32
        | _, false => s.seed) ∧
      t.len = s.len ∧ t.dsize = s.dsize ∧ t.h32 = s.h32 ∧ t.h64 = s.h64 ∧ t.cnt = s.cnt ∧ t.turns = rest ∧
      t.reply = some { resp := .okay, rdata := none, reason := none } ∧ ∀ a, t.dataByte a = s.dataByte a

/-- R68, R102 to R105 "Refusals": the meaning of a command in a busy block is the refusal `BUSY`, and nothing of the block
changes. -/
def Obligations.CommandWhileBusyIsRefused : Prop :=
  ∀ (s : State) (u : HashUnit) (d : Bool), s.phase ≠ phaseIdle →
    exec (commandInstr u d) s = .next { s with
      reply := some { resp := .error, rdata := none, reason := some .busy } }

/-- R110: from any idle state a default-seed command has exactly the effect of a `SEED` write of the constant followed
by the explicit-seed command of the same unit. -/
def Obligations.DefaultSeedCommandIsSeedWriteThenCommand : Prop :=
  ∀ (s : State) (rest : List Turn), s.phase = phaseIdle →
    run 1 { s with turns := stmtTurn (.cmd .u32 true) :: rest } =
      run 2 { s with turns := stmtTurn (.wr .seed 0x9747b28c#32) :: stmtTurn (.cmd .u32 false) :: rest } ∧
    run 1 { s with turns := stmtTurn (.cmd .u64 true) :: rest } =
      run 2 { s with turns := stmtTurn (.wr .seed 0xe17a1465#32) :: stmtTurn (.cmd .u64 false) :: rest }

/-- R167: `ERR` stays 1 in an idle block until a command is accepted or reset comes, and issuing a command again with
`LEN` and `DSIZE` unchanged sets it again. -/
def Obligations.ErrStaysUntilNextAcceptance : Prop :=
  (∀ s t : State, s.err = true → s.phase = phaseIdle → step s = .next t →
    (∀ rest, s.turns ≠ .reset :: rest) →
    (∀ u d rest, s.turns ≠ .host { space := .reg, kind := .write (commandCode u d), off := 0x00, n := 4 } :: rest) →
    t.err = true ∧ t.phase = phaseIdle) ∧
  ∀ (s : State) (u : HashUnit) (d : Bool) (u' : HashUnit) (d' : Bool) (rest : List Turn),
    s.phase = phaseIdle → min s.dsize.toNat bufBytes < s.len.toNat →
    s.turns = cmdWrite (commandCode u d) :: cmdWrite (commandCode u' d') :: rest →
    ∃ t₁ t₂, run 1 s = .next t₁ ∧ t₁.err = true ∧ run 2 s = .next t₂ ∧ t₂.err = true ∧ t₂.phase = phaseIdle

/-! ### Micro-operations -/

/-- R121. Selected by `VAR = 0`, `PHASE = INIT`. -/
def Obligations.InitThirtyTwoXorsSeedAndLength : Prop :=
  decode (.ustep 0b0001#4) = .ok .init32 ∧
  ∀ s : State, exec .init32 s = .next { s with
    h32 := s.seed ^^^ s.len
    cnt := 0#32
    phase := if s.len >>> 2 ≠ 0#32 then phaseBlock else phaseTail }

/-- R123 with R122 and R52: the group is its four bytes, lowest offset in bits 7:0; the accumulator is multiplied first
and the mixed word XORed in after. -/
def Obligations.BlockThirtyTwoMultipliesThenXors : Prop :=
  decode (.ustep 0b0010#4) = .ok .block32 ∧
  ∀ s : State, 4 * s.cnt.toNat + 4 ≤ bufBytes →
    ∀ k k2 : Word,
      k = s.dataByte (4 * s.cnt.toNat + 3) ++ s.dataByte (4 * s.cnt.toNat + 2) ++
        s.dataByte (4 * s.cnt.toNat + 1) ++ s.dataByte (4 * s.cnt.toNat) →
      k2 = (k * 0x5bd1e995#32) ^^^ ((k * 0x5bd1e995#32) >>> 24) →
      exec .block32 s = .next { s with
        h32 := (s.h32 * 0x5bd1e995#32) ^^^ (k2 * 0x5bd1e995#32)
        cnt := s.cnt + 1#32
        phase := if s.cnt + 1#32 < s.len >>> 2 then phaseBlock else phaseTail }

/-- R125 with R124: without tail bytes the accumulator is unchanged and nothing is read; with `rem` of them their
little-endian value is XORed in and one multiply follows. -/
def Obligations.TailThirtyTwoMixesRemainingBytes : Prop :=
  decode (.ustep 0b0011#4) = .ok .tail32 ∧
  ∀ s : State, (s.len.toNat % 4 = 0 ∨ s.len.toNat ≤ bufBytes) →
    exec .tail32 s = .next { s with
      h32 :=
        if s.len.toNat % 4 = 0 then s.h32
        else (s.h32 ^^^ BitVec.ofNat 32 (∑ j ∈ Finset.range (s.len.toNat % 4),
          (s.dataByte (4 * (s.len.toNat / 4) + j)).toNat * 2 ^ (8 * j))) * 0x5bd1e995#32
      phase := phaseFinal }

/-- R127 with R126. -/
def Obligations.FinalThirtyTwoDeliversTheAvalanche : Prop :=
  decode (.ustep 0b0100#4) = .ok .final32 ∧
  ∀ (s : State) (b : Word), b = (s.h32 ^^^ (s.h32 >>> 13)) * 0x5bd1e995#32 →
    exec .final32 s = .next { s with
      h32 := b ^^^ (b >>> 15)
      result := (b ^^^ (b >>> 15)).setWidth 64
      done := true
      phase := phaseIdle }

/-- R141: the seed is zero-extended, the length zero-extended and multiplied. -/
def Obligations.InitSixtyFourMultipliesTheLength : Prop :=
  decode (.ustep 0b1001#4) = .ok .init64 ∧
  ∀ s : State, exec .init64 s = .next { s with
    h64 := BitVec.ofNat 64 s.seed.toNat ^^^ (BitVec.ofNat 64 s.len.toNat * 0xc6a4a7935bd1e995#64)
    cnt := 0#32
    phase := if s.len >>> 3 ≠ 0#32 then phaseBlock else phaseTail }

/-- R143 with R142 and R52: the mixed word is XORed in first and the accumulator multiplied after. -/
def Obligations.BlockSixtyFourXorsThenMultiplies : Prop :=
  decode (.ustep 0b1010#4) = .ok .block64 ∧
  ∀ s : State, 8 * s.cnt.toNat + 8 ≤ bufBytes →
    ∀ k k2 : DWord,
      k = s.dataByte (8 * s.cnt.toNat + 7) ++ s.dataByte (8 * s.cnt.toNat + 6) ++
        s.dataByte (8 * s.cnt.toNat + 5) ++ s.dataByte (8 * s.cnt.toNat + 4) ++
        s.dataByte (8 * s.cnt.toNat + 3) ++ s.dataByte (8 * s.cnt.toNat + 2) ++
        s.dataByte (8 * s.cnt.toNat + 1) ++ s.dataByte (8 * s.cnt.toNat) →
      k2 = (k * 0xc6a4a7935bd1e995#64) ^^^ ((k * 0xc6a4a7935bd1e995#64) >>> 47) →
      exec .block64 s = .next { s with
        h64 := (s.h64 ^^^ (k2 * 0xc6a4a7935bd1e995#64)) * 0xc6a4a7935bd1e995#64
        cnt := s.cnt + 1#32
        phase := if s.cnt + 1#32 < s.len >>> 3 then phaseBlock else phaseTail }

/-- R145 with R144. -/
def Obligations.TailSixtyFourMixesRemainingBytes : Prop :=
  decode (.ustep 0b1011#4) = .ok .tail64 ∧
  ∀ s : State, (s.len.toNat % 8 = 0 ∨ s.len.toNat ≤ bufBytes) →
    exec .tail64 s = .next { s with
      h64 :=
        if s.len.toNat % 8 = 0 then s.h64
        else (s.h64 ^^^ BitVec.ofNat 64 (∑ j ∈ Finset.range (s.len.toNat % 8),
          (s.dataByte (8 * (s.len.toNat / 8) + j)).toNat * 2 ^ (8 * j))) * 0xc6a4a7935bd1e995#64
      phase := phaseFinal }

/-- R147 with R146. -/
def Obligations.FinalSixtyFourDeliversTheAvalanche : Prop :=
  decode (.ustep 0b1100#4) = .ok .final64 ∧
  ∀ (s : State) (b : DWord), b = (s.h64 ^^^ (s.h64 >>> 47)) * 0xc6a4a7935bd1e995#64 →
    exec .final64 s = .next { s with
      h64 := b ^^^ (b >>> 47)
      result := b ^^^ (b >>> 47)
      done := true
      phase := phaseIdle }

/-- The micro-operations stop by name where the bytes they read are not cells of the buffer. The spec names no such cell (R10) and reaches no such state (R62); the stop is the model's choice
(log 8). -/
def Obligations.ReadsOutsideTheBufferStop : Prop :=
  ∀ s : State,
    (bufBytes < 4 * s.cnt.toNat + 4 → exec .block32 s = .fault .readOutsideBuffer) ∧
    (bufBytes < 8 * s.cnt.toNat + 8 → exec .block64 s = .fault .readOutsideBuffer) ∧
    (s.len.toNat % 4 ≠ 0 → bufBytes < s.len.toNat → exec .tail32 s = .fault .readOutsideBuffer) ∧
    (s.len.toNat % 8 ≠ 0 → bufBytes < s.len.toNat → exec .tail64 s = .fault .readOutsideBuffer)

/-- The frame of all twelve instructions: what each leaves unchanged when it answers a next state. No instruction writes
`DATA`, `LEN` or `DSIZE` (R22, R23, R32); only the default-seed commands write `SEED` (R21); only commands answer the
host and write `VAR` and `ERR` (R38, R25); U64 leaves `H32` alone and U32 leaves `H64` alone (R28, R29); only INIT and
BLOCK write `CNT` (R27); only commands and FINAL write `RESULT` and `DONE` (R24, R25). -/
def Obligations.InstructionsLeaveTheRestUnchanged : Prop :=
  ∀ (i : Instr) (s t : State), exec i s = .next t →
    (∀ off, t.dataByte off = s.dataByte off) ∧ t.len = s.len ∧ t.dsize = s.dsize ∧
    t.turns = s.turns ∧ t.resets = s.resets ∧
    (i ∉ [Instr.hash32d, .hash64d] → t.seed = s.seed) ∧
    (i ∉ [Instr.hash32, .hash32d, .hash64, .hash64d] → t.var = s.var ∧ t.err = s.err ∧ t.reply = s.reply) ∧
    (i ∉ [Instr.init32, .block32, .tail32, .final32] → t.h32 = s.h32) ∧
    (i ∉ [Instr.init64, .block64, .tail64, .final64] → t.h64 = s.h64) ∧
    (i ∉ [Instr.init32, .block32, .init64, .block64] → t.cnt = s.cnt) ∧
    (i ∉ [Instr.hash32, .hash32d, .hash64, .hash64d, .final32, .final64] →
      t.result = s.result ∧ t.done = s.done)

/-! ### The whole machine -/

/-- The invariant holds after reset, whatever the environment does next. -/
def Obligations.ResetMeetsTheInvariant : Prop :=
  ∀ us : List Turn, ({ State.reset with turns := us } : State).Inv ∧ ({ State.reset with turns := us } : State).HashInv

/-- Every step keeps the invariant `State.Inv`: the buffer's canonical form and bounds, the legal phases (R26), the
exclusive flags (R33), `RESULT` zero without `DONE` and equal to the accumulator with it (R24), the bounds check of a
running hash (R106), and the counter's range (R27). -/
def Obligations.EveryStepKeepsTheInvariant : Prop :=
  ∀ s t : State, s.Inv → step s = .next t → t.Inv

/-- Every step keeps the value of a running hash: at each point the accumulator is the closed form's partial value over
the bytes of `DATA` (R128, R148), whatever the host does meanwhile. -/
def Obligations.EveryStepKeepsThePartialHash : Prop :=
  ∀ s t : State, s.Inv → s.HashInv → step s = .next t → t.HashInv

/-- R33: in every reachable state at most one of `BUSY`, `DONE`, `ERR` is 1; after reset none is; after a command is
accepted exactly one is, from then on until reset. -/
def Obligations.AtMostOneFlagIsSet : Prop :=
  (∀ (us : List Turn) (n : Nat) (t : State), run n { State.reset with turns := us } = .next t →
    t.oneFlag ∨ (t.busy = false ∧ t.done = false ∧ t.err = false)) ∧
  (State.reset.busy = false ∧ State.reset.done = false ∧ State.reset.err = false) ∧
  (∀ (s : State) (u : HashUnit) (d : Bool), s.phase = phaseIdle →
    ∃ t, exec (commandInstr u d) s = .next t ∧ t.oneFlag) ∧
  (∀ s t : State, s.phase.toNat ≤ 4 → s.oneFlag → step s = .next t → (∀ rest, s.turns ≠ .reset :: rest) → t.oneFlag)

/-- R62, R162: from a state that meets the invariant no run asks for a byte outside the buffer. -/
def Obligations.SequencerNeverReadsOutsideTheBuffer : Prop :=
  ∀ s : State, s.Inv → s.SafeRuns

/-- R66: while a hash runs the sequencer always has its step, and the host cannot block it. -/
def Obligations.RunningSequencerAlwaysHasItsStep : Prop :=
  ∀ (s : State) (rest : List Turn), s.Inv → s.phase ≠ phaseIdle →
    (s.turns = [] ∨ s.turns = .sequencer :: rest) → ∃ t, step s = .next t ∧ (t.phase ≠ s.phase ∨ t.cnt = s.cnt + 1#32)

/-- R26: what a step does to `PHASE`, for every turn. Reset brings it to IDLE. A `CMD` write of a command starts a hash from
IDLE exactly when the bounds check passes (R101). At a turn of the sequencer each micro-operation moves it along the
fixed graph: INIT to BLOCK when there is a full group and to TAIL when there is none (R121, R141), BLOCK to BLOCK when
another full group remains and to TAIL when none does (R123, R143), TAIL to FINAL, FINAL to IDLE. At every other turn
it stays; with no micro-operation enabled (R84, R174) too, where that a turn given to the sequencer passes is the
model's choice (log 6), as is that the sequencer moves when no turn is offered (log 4). -/
def Obligations.PhaseFollowsTheFixedGraph : Prop :=
  ∀ s t : State, step s = .next t →
    let groups := groupCount (if s.var then .u64 else .u32) s.len
    let resets := ∃ rest, s.turns = .reset :: rest
    let accepts := s.phase = phaseIdle ∧ ∃ u d rest, s.turns = cmdWrite (commandCode u d) :: rest
    let sequencer := s.turns = [] ∨ ∃ rest, s.turns = .sequencer :: rest
    (resets → t.phase = phaseIdle) ∧
    (accepts → t.phase = if s.len.toNat ≤ min s.dsize.toNat bufBytes then phaseInit else phaseIdle) ∧
    (sequencer →
      (s.phase = phaseInit → t.phase = if 0 < groups then phaseBlock else phaseTail) ∧
      (s.phase = phaseBlock → t.phase = if (s.cnt + 1#32).toNat < groups then phaseBlock else phaseTail) ∧
      (s.phase = phaseTail → t.phase = phaseFinal) ∧
      (s.phase = phaseFinal → t.phase = phaseIdle) ∧
      (s.phase = phaseIdle ∨ 5 ≤ s.phase.toNat → t.phase = s.phase)) ∧
    (¬resets → ¬accepts → ¬sequencer → t.phase = s.phase)

/-- R32, R51: the only steps that change what a cell of `DATA` reads as are a host write of the DATA space and reset. -/
def Obligations.DataChangesOnlyByHostWriteOrReset : Prop :=
  ∀ (s t : State) (a : Nat), step s = .next t → t.dataByte a ≠ s.dataByte a →
    (∃ rest, s.turns = .reset :: rest) ∨
    (∃ off n v rest, s.turns = .host { space := .data, kind := .write v, off := off, n := n } :: rest ∧
      s.phase = phaseIdle ∧ off ≤ a ∧ a < off + n)

/-- R21, R22, R23: what writes the operand registers. -/
def Obligations.OperandsAreWrittenOnlyByTheHost : Prop :=
  ∀ s t : State, step s = .next t → (∀ rest, s.turns ≠ .reset :: rest) →
    (t.len ≠ s.len → s.phase = phaseIdle ∧
      ∃ rest, s.turns = .host { space := .reg, kind := .write t.len, off := 0x0C, n := 4 } :: rest) ∧
    (t.dsize ≠ s.dsize → s.phase = phaseIdle ∧
      ∃ rest, s.turns = .host { space := .reg, kind := .write t.dsize, off := 0x10, n := 4 } :: rest) ∧
    (t.seed ≠ s.seed → s.phase = phaseIdle ∧ ∃ rest,
      s.turns = .host { space := .reg, kind := .write t.seed, off := 0x08, n := 4 } :: rest ∨
      (s.turns = cmdWrite 0x00000005#32 :: rest ∧ t.seed = 0x9747b28c#32) ∨
      (s.turns = cmdWrite 0x00000006#32 :: rest ∧ t.seed = 0xe17a1465#32))

/-- R24: `RESULT` is written in exactly three ways (and by reset): acceptance writes 0, FINAL32 the zero-extended hash,
FINAL64 the hash. -/
def Obligations.ResultIsWrittenInThreeWays : Prop :=
  ∀ s t : State, step s = .next t → t.result ≠ s.result → (∀ rest, s.turns ≠ .reset :: rest) →
    (s.phase = phaseIdle ∧ t.result = 0#64 ∧ ∃ u d rest, s.turns = cmdWrite (commandCode u d) :: rest) ∨
    (s.var = false ∧ s.phase = phaseFinal ∧ t.result = (fmix32 s.h32).setWidth 64 ∧ t.done = true) ∨
    (s.var = true ∧ s.phase = phaseFinal ∧ t.result = fmix64 s.h64 ∧ t.done = true)

/-- R198: after `DONE` the result and the flags are stable until the next command is accepted or reset comes, whatever
else the host reads or writes. -/
def Obligations.ResultIsStableAfterDone : Prop :=
  ∀ s t : State, s.done = true → s.phase = phaseIdle → step s = .next t →
    (∀ rest, s.turns ≠ .reset :: rest) → (∀ u d rest, s.turns ≠ cmdWrite (commandCode u d) :: rest) →
    t.result = s.result ∧ t.done = true ∧ t.err = s.err ∧ t.var = s.var ∧ t.phase = phaseIdle

/-! ### End to end -/

/-- R129: a 32-bit command accepted within bounds, followed by exactly `NBLK + 3` sequencer steps with any host reads
among them, leaves `MH32` of the operands in `RESULT`, and everything R129 says unchanged is unchanged. -/
def Obligations.HashThirtyTwoEndToEnd : Prop :=
  ∀ (s : State) (d : Bool) (us rest : List Turn) (seed : Word),
    s.phase = phaseIdle → s.len.toNat ≤ min s.dsize.toNat bufBytes →
    s.turns = cmdWrite (commandCode .u32 d) :: (us ++ rest) →
    (∀ u ∈ us, Turn.quiet u = true) → seqTurns us = s.len.toNat / 4 + 3 →
    seed = (if d then 0x9747b28c#32 else s.seed) →
    ∃ reply, run (us.length + 1) s = .next { s with
      seed := seed, result := (mh32 s.dataByte s.len seed).setWidth 64, done := true, err := false, var := false
      phase := phaseIdle, cnt := s.len >>> 2, h32 := mh32 s.dataByte s.len seed, turns := rest, reply := reply }

/-- R149: the same for a 64-bit command and `MH64`. -/
def Obligations.HashSixtyFourEndToEnd : Prop :=
  ∀ (s : State) (d : Bool) (us rest : List Turn) (seed : Word),
    s.phase = phaseIdle → s.len.toNat ≤ min s.dsize.toNat bufBytes →
    s.turns = cmdWrite (commandCode .u64 d) :: (us ++ rest) →
    (∀ u ∈ us, Turn.quiet u = true) → seqTurns us = s.len.toNat / 8 + 3 →
    seed = (if d then 0xe17a1465#32 else s.seed) →
    ∃ reply, run (us.length + 1) s = .next { s with
      seed := seed, result := mh64 s.dataByte s.len seed, done := true, err := false, var := true
      phase := phaseIdle, cnt := s.len >>> 3, h64 := mh64 s.dataByte s.len seed, turns := rest, reply := reply }

/-- R202, R195: with fewer than `NBLK + 3` sequencer steps after acceptance, and any host reads among them, the hash is
still running: `BUSY` is 1, `DONE` and `ERR` are 0, and `RESULT` reads 0. -/
def Obligations.ResultIsZeroUntilTheLastStep : Prop :=
  ∀ (s : State) (u : HashUnit) (d : Bool) (us rest : List Turn),
    s.phase = phaseIdle → s.len.toNat ≤ min s.dsize.toNat bufBytes →
    s.turns = cmdWrite (commandCode u d) :: (us ++ rest) →
    (∀ v ∈ us, Turn.quiet v = true) → seqTurns us < groupCount u s.len + 3 →
    ∃ t, run (us.length + 1) s = .next t ∧ t.busy = true ∧ t.done = false ∧ t.err = false ∧ t.result = 0#64

/-- R109: the outcome of a command is a function of the unit, the seed after the default-seed load, `LEN`, the bytes
below `LEN`, and whether `LEN > AVAIL`: two blocks that agree on these, and on nothing else, end with the same
`RESULT`, `DONE` and `ERR`, whatever reads are interleaved in each. -/
def Obligations.OutcomeDependsOnTheOperandsOnly : Prop :=
  ∀ (s₁ s₂ : State) (u : HashUnit) (d : Bool) (us₁ us₂ rest₁ rest₂ : List Turn),
    s₁.phase = phaseIdle → s₂.phase = phaseIdle →
    s₁.len = s₂.len → (d = false → s₁.seed = s₂.seed) → (∀ a, a < s₁.len.toNat → s₁.dataByte a = s₂.dataByte a) →
    (min s₁.dsize.toNat bufBytes < s₁.len.toNat ↔ min s₂.dsize.toNat bufBytes < s₂.len.toNat) →
    s₁.turns = cmdWrite (commandCode u d) :: (us₁ ++ rest₁) →
    s₂.turns = cmdWrite (commandCode u d) :: (us₂ ++ rest₂) →
    (∀ v ∈ us₁, Turn.quiet v = true) → (∀ v ∈ us₂, Turn.quiet v = true) →
    seqTurns us₁ = groupCount u s₁.len + 3 → seqTurns us₂ = groupCount u s₁.len + 3 →
    ∃ t₁ t₂, run (us₁.length + 1) s₁ = .next t₁ ∧ run (us₂.length + 1) s₂ = .next t₂ ∧
      t₁.result = t₂.result ∧ t₁.done = t₂.done ∧ t₁.err = t₂.err ∧ t₁.done = !t₁.err

/-! ### The functions -/

/-- R52, R58: the sequencer's and the host's read of `n` bytes is the little-endian sum. -/
def Obligations.MemoryReadIsLittleEndian : Prop :=
  ∀ (s : State) (off n : Nat),
    s.dataRead off n = ∑ j ∈ Finset.range n, (s.dataByte (off + j)).toNat * 2 ^ (8 * j)

/-- R69: only the first `l` bytes take part. -/
def Obligations.BytesBeyondTheLengthAreIgnored : Prop :=
  ∀ (d e : Nat → Byte) (l s : Word), (∀ a, a < l.toNat → d a = e a) → mh32 d l s = mh32 e l s ∧ mh64 d l s = mh64 e l s

/-- R131 item 2: for fixed bytes and length the map from seed to 32-bit result is a bijection. -/
def Obligations.SeedToResultIsBijectiveThirtyTwo : Prop :=
  ∀ (d : Nat → Byte) (l : Word), Function.Bijective (fun s : Word => mh32 d l s)

/-- R151 item 2: for fixed bytes and length different seeds give different 64-bit results. -/
def Obligations.SeedToResultIsInjectiveSixtyFour : Prop :=
  ∀ (d : Nat → Byte) (l : Word), Function.Injective (fun s : Word => mh64 d l s)

/-- R131 item 3: changing bytes inside exactly one group, or only inside the tail (group number `l / 4`), always changes
the 32-bit result. -/
def Obligations.EveryByteParticipatesThirtyTwo : Prop :=
  ∀ (d e : Nat → Byte) (l s : Word) (g : Nat), (∀ a, a < l.toNat → a / 4 ≠ g → d a = e a) →
    (∃ a, a < l.toNat ∧ a / 4 = g ∧ d a ≠ e a) → mh32 d l s ≠ mh32 e l s

/-- R151 item 3: the same for U64 with groups of 8. -/
def Obligations.EveryByteParticipatesSixtyFour : Prop :=
  ∀ (d e : Nat → Byte) (l s : Word) (g : Nat), (∀ a, a < l.toNat → a / 8 ≠ g → d a = e a) →
    (∃ a, a < l.toNat ∧ a / 8 = g ∧ d a ≠ e a) → mh64 d l s ≠ mh64 e l s

/-- R122, R126, R142, R146: the group mixes and the avalanches, their formulas; they keep 0 and are bijections. -/
def Obligations.MixesAndAvalanchesAreBijections : Prop :=
  (∀ k : Word, kmix32 k = ((k * 0x5bd1e995#32) ^^^ ((k * 0x5bd1e995#32) >>> 24)) * 0x5bd1e995#32) ∧
  (∀ h b : Word, b = (h ^^^ (h >>> 13)) * 0x5bd1e995#32 → fmix32 h = b ^^^ (b >>> 15)) ∧
  (∀ k : DWord, kmix64 k =
    ((k * 0xc6a4a7935bd1e995#64) ^^^ ((k * 0xc6a4a7935bd1e995#64) >>> 47)) * 0xc6a4a7935bd1e995#64) ∧
  (∀ h b : DWord, b = (h ^^^ (h >>> 47)) * 0xc6a4a7935bd1e995#64 → fmix64 h = b ^^^ (b >>> 47)) ∧
  Function.Bijective kmix32 ∧ Function.Bijective fmix32 ∧ Function.Bijective kmix64 ∧ Function.Bijective fmix64 ∧
  kmix32 0#32 = 0#32 ∧ fmix32 0#32 = 0#32 ∧ kmix64 0#64 = 0#64 ∧ fmix64 0#64 = 0#64

/-- R130, R150: the hash of the empty input is the avalanche of the seed alone. -/
def Obligations.EmptyInputHashesTheSeedAlone : Prop :=
  (∀ (d : Nat → Byte) (s : Word), mh32 d 0#32 s = fmix32 s ∧ mh64 d 0#32 s = fmix64 (BitVec.ofNat 64 s.toNat)) ∧
  (∀ d : Nat → Byte, mh32 d 0#32 0#32 = 0#32 ∧ mh32 d 0#32 0x9747b28c#32 = 0x106e08d9#32 ∧
    mh64 d 0#32 0#32 = 0#64 ∧ mh64 d 0#32 0xe17a1465#32 = 0x9bfae0a4e613fc3c#64)
end

