-- ==== Sys2Proof/Laws/State.lean ====
section
/-! SUPPORT. One lemma per field of `State` and per named update of it, so that no proof unfolds a record update. -/

namespace Sys2Proof.Machine

/-! ### `okayWrite` -/

@[simp] theorem State.okayWrite_seed (s : State) : s.okayWrite.seed = s.seed := rfl
@[simp] theorem State.okayWrite_len (s : State) : s.okayWrite.len = s.len := rfl
@[simp] theorem State.okayWrite_dsize (s : State) : s.okayWrite.dsize = s.dsize := rfl
@[simp] theorem State.okayWrite_result (s : State) : s.okayWrite.result = s.result := rfl
@[simp] theorem State.okayWrite_done (s : State) : s.okayWrite.done = s.done := rfl
@[simp] theorem State.okayWrite_err (s : State) : s.okayWrite.err = s.err := rfl
@[simp] theorem State.okayWrite_var (s : State) : s.okayWrite.var = s.var := rfl
@[simp] theorem State.okayWrite_phase (s : State) : s.okayWrite.phase = s.phase := rfl
@[simp] theorem State.okayWrite_cnt (s : State) : s.okayWrite.cnt = s.cnt := rfl
@[simp] theorem State.okayWrite_h32 (s : State) : s.okayWrite.h32 = s.h32 := rfl
@[simp] theorem State.okayWrite_h64 (s : State) : s.okayWrite.h64 = s.h64 := rfl
@[simp] theorem State.okayWrite_data (s : State) : s.okayWrite.data = s.data := rfl
@[simp] theorem State.okayWrite_resets (s : State) : s.okayWrite.resets = s.resets := rfl
@[simp] theorem State.okayWrite_turns (s : State) : s.okayWrite.turns = s.turns := rfl
@[simp] theorem State.okayWrite_reply (s : State) : s.okayWrite.reply = some { resp := .okay, rdata := none, reason := none } := rfl

/-! ### `okayRead` -/

@[simp] theorem State.okayRead_seed (s : State) (v : Word) : (s.okayRead v).seed = s.seed := rfl
@[simp] theorem State.okayRead_len (s : State) (v : Word) : (s.okayRead v).len = s.len := rfl
@[simp] theorem State.okayRead_dsize (s : State) (v : Word) : (s.okayRead v).dsize = s.dsize := rfl
@[simp] theorem State.okayRead_result (s : State) (v : Word) : (s.okayRead v).result = s.result := rfl
@[simp] theorem State.okayRead_done (s : State) (v : Word) : (s.okayRead v).done = s.done := rfl
@[simp] theorem State.okayRead_err (s : State) (v : Word) : (s.okayRead v).err = s.err := rfl
@[simp] theorem State.okayRead_var (s : State) (v : Word) : (s.okayRead v).var = s.var := rfl
@[simp] theorem State.okayRead_phase (s : State) (v : Word) : (s.okayRead v).phase = s.phase := rfl
@[simp] theorem State.okayRead_cnt (s : State) (v : Word) : (s.okayRead v).cnt = s.cnt := rfl
@[simp] theorem State.okayRead_h32 (s : State) (v : Word) : (s.okayRead v).h32 = s.h32 := rfl
@[simp] theorem State.okayRead_h64 (s : State) (v : Word) : (s.okayRead v).h64 = s.h64 := rfl
@[simp] theorem State.okayRead_data (s : State) (v : Word) : (s.okayRead v).data = s.data := rfl
@[simp] theorem State.okayRead_resets (s : State) (v : Word) : (s.okayRead v).resets = s.resets := rfl
@[simp] theorem State.okayRead_turns (s : State) (v : Word) : (s.okayRead v).turns = s.turns := rfl
@[simp] theorem State.okayRead_reply (s : State) (v : Word) : (s.okayRead v).reply = some { resp := .okay, rdata := some v, reason := none } := rfl

/-! ### `refuse` -/

@[simp] theorem State.refuse_seed (s : State) (d : Option Word) (r : Reason) : (s.refuse d r).seed = s.seed := rfl
@[simp] theorem State.refuse_len (s : State) (d : Option Word) (r : Reason) : (s.refuse d r).len = s.len := rfl
@[simp] theorem State.refuse_dsize (s : State) (d : Option Word) (r : Reason) : (s.refuse d r).dsize = s.dsize := rfl
@[simp] theorem State.refuse_result (s : State) (d : Option Word) (r : Reason) : (s.refuse d r).result = s.result := rfl
@[simp] theorem State.refuse_done (s : State) (d : Option Word) (r : Reason) : (s.refuse d r).done = s.done := rfl
@[simp] theorem State.refuse_err (s : State) (d : Option Word) (r : Reason) : (s.refuse d r).err = s.err := rfl
@[simp] theorem State.refuse_var (s : State) (d : Option Word) (r : Reason) : (s.refuse d r).var = s.var := rfl
@[simp] theorem State.refuse_phase (s : State) (d : Option Word) (r : Reason) : (s.refuse d r).phase = s.phase := rfl
@[simp] theorem State.refuse_cnt (s : State) (d : Option Word) (r : Reason) : (s.refuse d r).cnt = s.cnt := rfl
@[simp] theorem State.refuse_h32 (s : State) (d : Option Word) (r : Reason) : (s.refuse d r).h32 = s.h32 := rfl
@[simp] theorem State.refuse_h64 (s : State) (d : Option Word) (r : Reason) : (s.refuse d r).h64 = s.h64 := rfl
@[simp] theorem State.refuse_data (s : State) (d : Option Word) (r : Reason) : (s.refuse d r).data = s.data := rfl
@[simp] theorem State.refuse_resets (s : State) (d : Option Word) (r : Reason) : (s.refuse d r).resets = s.resets := rfl
@[simp] theorem State.refuse_turns (s : State) (d : Option Word) (r : Reason) : (s.refuse d r).turns = s.turns := rfl
@[simp] theorem State.refuse_reply (s : State) (d : Option Word) (r : Reason) : (s.refuse d r).reply = some { resp := .error, rdata := d, reason := some r } := rfl

/-! ### `raiseBounds` -/

@[simp] theorem State.raiseBounds_seed (s : State) : s.raiseBounds.seed = s.seed := rfl
@[simp] theorem State.raiseBounds_len (s : State) : s.raiseBounds.len = s.len := rfl
@[simp] theorem State.raiseBounds_dsize (s : State) : s.raiseBounds.dsize = s.dsize := rfl
@[simp] theorem State.raiseBounds_result (s : State) : s.raiseBounds.result = s.result := rfl
@[simp] theorem State.raiseBounds_done (s : State) : s.raiseBounds.done = s.done := rfl
@[simp] theorem State.raiseBounds_err (s : State) : s.raiseBounds.err = true := rfl
@[simp] theorem State.raiseBounds_var (s : State) : s.raiseBounds.var = s.var := rfl
@[simp] theorem State.raiseBounds_phase (s : State) : s.raiseBounds.phase = s.phase := rfl
@[simp] theorem State.raiseBounds_cnt (s : State) : s.raiseBounds.cnt = s.cnt := rfl
@[simp] theorem State.raiseBounds_h32 (s : State) : s.raiseBounds.h32 = s.h32 := rfl
@[simp] theorem State.raiseBounds_h64 (s : State) : s.raiseBounds.h64 = s.h64 := rfl
@[simp] theorem State.raiseBounds_data (s : State) : s.raiseBounds.data = s.data := rfl
@[simp] theorem State.raiseBounds_resets (s : State) : s.raiseBounds.resets = s.resets := rfl
@[simp] theorem State.raiseBounds_turns (s : State) : s.raiseBounds.turns = s.turns := rfl
@[simp] theorem State.raiseBounds_reply (s : State) : s.raiseBounds.reply = s.reply := rfl

/-! ### `beginCommand` -/

@[simp] theorem State.beginCommand_seed (s : State) (u : Bool) (w : Word) : (s.beginCommand u w).seed = w := rfl
@[simp] theorem State.beginCommand_len (s : State) (u : Bool) (w : Word) : (s.beginCommand u w).len = s.len := rfl
@[simp] theorem State.beginCommand_dsize (s : State) (u : Bool) (w : Word) : (s.beginCommand u w).dsize = s.dsize := rfl
@[simp] theorem State.beginCommand_result (s : State) (u : Bool) (w : Word) : (s.beginCommand u w).result = 0#64 := rfl
@[simp] theorem State.beginCommand_done (s : State) (u : Bool) (w : Word) : (s.beginCommand u w).done = false := rfl
@[simp] theorem State.beginCommand_err (s : State) (u : Bool) (w : Word) : (s.beginCommand u w).err = false := rfl
@[simp] theorem State.beginCommand_var (s : State) (u : Bool) (w : Word) : (s.beginCommand u w).var = u := rfl
@[simp] theorem State.beginCommand_phase (s : State) (u : Bool) (w : Word) : (s.beginCommand u w).phase = s.phase := rfl
@[simp] theorem State.beginCommand_cnt (s : State) (u : Bool) (w : Word) : (s.beginCommand u w).cnt = s.cnt := rfl
@[simp] theorem State.beginCommand_h32 (s : State) (u : Bool) (w : Word) : (s.beginCommand u w).h32 = s.h32 := rfl
@[simp] theorem State.beginCommand_h64 (s : State) (u : Bool) (w : Word) : (s.beginCommand u w).h64 = s.h64 := rfl
@[simp] theorem State.beginCommand_data (s : State) (u : Bool) (w : Word) : (s.beginCommand u w).data = s.data := rfl
@[simp] theorem State.beginCommand_resets (s : State) (u : Bool) (w : Word) : (s.beginCommand u w).resets = s.resets := rfl
@[simp] theorem State.beginCommand_turns (s : State) (u : Bool) (w : Word) : (s.beginCommand u w).turns = s.turns := rfl
@[simp] theorem State.beginCommand_reply (s : State) (u : Bool) (w : Word) : (s.beginCommand u w).reply = s.reply := rfl

/-! ### `dataWrite` -/

@[simp] theorem State.dataWrite_seed (s : State) (off n : Nat) (v : Word) : (s.dataWrite off n v).seed = s.seed := rfl
@[simp] theorem State.dataWrite_len (s : State) (off n : Nat) (v : Word) : (s.dataWrite off n v).len = s.len := rfl
@[simp] theorem State.dataWrite_dsize (s : State) (off n : Nat) (v : Word) : (s.dataWrite off n v).dsize = s.dsize := rfl
@[simp] theorem State.dataWrite_result (s : State) (off n : Nat) (v : Word) : (s.dataWrite off n v).result = s.result := rfl
@[simp] theorem State.dataWrite_done (s : State) (off n : Nat) (v : Word) : (s.dataWrite off n v).done = s.done := rfl
@[simp] theorem State.dataWrite_err (s : State) (off n : Nat) (v : Word) : (s.dataWrite off n v).err = s.err := rfl
@[simp] theorem State.dataWrite_var (s : State) (off n : Nat) (v : Word) : (s.dataWrite off n v).var = s.var := rfl
@[simp] theorem State.dataWrite_phase (s : State) (off n : Nat) (v : Word) : (s.dataWrite off n v).phase = s.phase := rfl
@[simp] theorem State.dataWrite_cnt (s : State) (off n : Nat) (v : Word) : (s.dataWrite off n v).cnt = s.cnt := rfl
@[simp] theorem State.dataWrite_h32 (s : State) (off n : Nat) (v : Word) : (s.dataWrite off n v).h32 = s.h32 := rfl
@[simp] theorem State.dataWrite_h64 (s : State) (off n : Nat) (v : Word) : (s.dataWrite off n v).h64 = s.h64 := rfl
@[simp] theorem State.dataWrite_data (s : State) (off n : Nat) (v : Word) : (s.dataWrite off n v).data = Memory.putBytes s.data off n v := rfl
@[simp] theorem State.dataWrite_resets (s : State) (off n : Nat) (v : Word) : (s.dataWrite off n v).resets = s.resets := rfl
@[simp] theorem State.dataWrite_turns (s : State) (off n : Nat) (v : Word) : (s.dataWrite off n v).turns = s.turns := rfl
@[simp] theorem State.dataWrite_reply (s : State) (off n : Nat) (v : Word) : (s.dataWrite off n v).reply = s.reply := rfl

/-! ### `resetEvent` -/

@[simp] theorem State.resetEvent_seed (s : State) : s.resetEvent.seed = 0#32 := rfl
@[simp] theorem State.resetEvent_len (s : State) : s.resetEvent.len = 0#32 := rfl
@[simp] theorem State.resetEvent_dsize (s : State) : s.resetEvent.dsize = 0#32 := rfl
@[simp] theorem State.resetEvent_result (s : State) : s.resetEvent.result = 0#64 := rfl
@[simp] theorem State.resetEvent_done (s : State) : s.resetEvent.done = false := rfl
@[simp] theorem State.resetEvent_err (s : State) : s.resetEvent.err = false := rfl
@[simp] theorem State.resetEvent_var (s : State) : s.resetEvent.var = false := rfl
@[simp] theorem State.resetEvent_phase (s : State) : s.resetEvent.phase = 0#3 := rfl
@[simp] theorem State.resetEvent_cnt (s : State) : s.resetEvent.cnt = 0#32 := rfl
@[simp] theorem State.resetEvent_h32 (s : State) : s.resetEvent.h32 = 0#32 := rfl
@[simp] theorem State.resetEvent_h64 (s : State) : s.resetEvent.h64 = 0#64 := rfl
@[simp] theorem State.resetEvent_data (s : State) : s.resetEvent.data = [] := rfl
@[simp] theorem State.resetEvent_resets (s : State) : s.resetEvent.resets = s.resets + 1 := rfl
@[simp] theorem State.resetEvent_turns (s : State) : s.resetEvent.turns = s.turns := rfl
@[simp] theorem State.resetEvent_reply (s : State) : s.resetEvent.reply = none := rfl

/-! ### Derived reads under updates that do not touch what they read -/

@[simp] theorem State.okayWrite_busy (s : State) : s.okayWrite.busy = s.busy := rfl
@[simp] theorem State.okayWrite_dataByte (s : State) (a : Nat) : s.okayWrite.dataByte a = s.dataByte a := rfl
@[simp] theorem State.okayWrite_avail (s : State) : s.okayWrite.avail = s.avail := rfl
@[simp] theorem State.okayWrite_outOfBounds (s : State) : s.okayWrite.outOfBounds = s.outOfBounds := rfl
@[simp] theorem State.okayRead_busy (s : State) (v : Word) : (s.okayRead v).busy = s.busy := rfl
@[simp] theorem State.okayRead_dataByte (s : State) (v : Word) (a : Nat) : (s.okayRead v).dataByte a = s.dataByte a := rfl
@[simp] theorem State.okayRead_avail (s : State) (v : Word) : (s.okayRead v).avail = s.avail := rfl
@[simp] theorem State.okayRead_outOfBounds (s : State) (v : Word) : (s.okayRead v).outOfBounds = s.outOfBounds := rfl
@[simp] theorem State.refuse_busy (s : State) (d : Option Word) (r : Reason) : (s.refuse d r).busy = s.busy := rfl
@[simp] theorem State.refuse_dataByte (s : State) (d : Option Word) (r : Reason) (a : Nat) : (s.refuse d r).dataByte a = s.dataByte a := rfl
@[simp] theorem State.refuse_avail (s : State) (d : Option Word) (r : Reason) : (s.refuse d r).avail = s.avail := rfl
@[simp] theorem State.refuse_outOfBounds (s : State) (d : Option Word) (r : Reason) : (s.refuse d r).outOfBounds = s.outOfBounds := rfl
@[simp] theorem State.raiseBounds_busy (s : State) : s.raiseBounds.busy = s.busy := rfl
@[simp] theorem State.raiseBounds_dataByte (s : State) (a : Nat) : s.raiseBounds.dataByte a = s.dataByte a := rfl
@[simp] theorem State.raiseBounds_avail (s : State) : s.raiseBounds.avail = s.avail := rfl
@[simp] theorem State.raiseBounds_outOfBounds (s : State) : s.raiseBounds.outOfBounds = s.outOfBounds := rfl
@[simp] theorem State.beginCommand_busy (s : State) (u : Bool) (w : Word) : (s.beginCommand u w).busy = s.busy := rfl
@[simp] theorem State.beginCommand_dataByte (s : State) (u : Bool) (w : Word) (a : Nat) : (s.beginCommand u w).dataByte a = s.dataByte a := rfl
@[simp] theorem State.beginCommand_avail (s : State) (u : Bool) (w : Word) : (s.beginCommand u w).avail = s.avail := rfl
@[simp] theorem State.beginCommand_outOfBounds (s : State) (u : Bool) (w : Word) : (s.beginCommand u w).outOfBounds = s.outOfBounds := rfl
@[simp] theorem State.dataWrite_busy (s : State) (off n : Nat) (v : Word) : (s.dataWrite off n v).busy = s.busy := rfl
@[simp] theorem State.dataWrite_avail (s : State) (off n : Nat) (v : Word) : (s.dataWrite off n v).avail = s.avail := rfl
@[simp] theorem State.dataWrite_outOfBounds (s : State) (off n : Nat) (v : Word) : (s.dataWrite off n v).outOfBounds = s.outOfBounds := rfl

/-! ### Replacing the turns changes no other reading -/

@[simp] theorem State.turns_busy (s : State) (us : List Turn) : ({ s with turns := us } : State).busy = s.busy := rfl
@[simp] theorem State.turns_dataByte (s : State) (us : List Turn) (a : Nat) :
    ({ s with turns := us } : State).dataByte a = s.dataByte a := rfl
@[simp] theorem State.turns_outOfBounds (s : State) (us : List Turn) :
    ({ s with turns := us } : State).outOfBounds = s.outOfBounds := rfl
@[simp] theorem State.turns_selector (s : State) (us : List Turn) :
    ({ s with turns := us } : State).selector = s.selector := rfl
@[simp] theorem State.turns_status (s : State) (us : List Turn) :
    ({ s with turns := us } : State).status = s.status := rfl

/-- The bytes of the buffer depend on its written cells and the reset count only. (Cite this rather than `rfl` where an
accumulator differs: the kernel would compare the accumulators, and unfold their products, first.) -/
theorem State.dataByte_congr (s t : State) (h1 : t.data = s.data) (h2 : t.resets = s.resets) : t.dataByte = s.dataByte := by
  funext a
  simp only [State.dataByte, h1, h2]

/-- `BUSY` is `PHASE != IDLE` (R25). -/
theorem State.busy_eq_false_iff (s : State) : s.busy = false ↔ s.phase = phaseIdle := by
  simp [State.busy, bne_eq_false_iff_eq]

theorem State.busy_eq_true_iff (s : State) : s.busy = true ↔ s.phase ≠ phaseIdle := by
  simp [State.busy]

/-- The bounds check as the spec words it (R106). -/
theorem State.outOfBounds_iff (s : State) :
    s.outOfBounds = true ↔ min s.dsize.toNat bufBytes < s.len.toNat := by
  simp [State.outOfBounds, State.avail]

theorem State.not_outOfBounds_iff (s : State) :
    s.outOfBounds = false ↔ s.len.toNat ≤ min s.dsize.toNat bufBytes := by
  simp [State.outOfBounds, State.avail]

/-- An unwritten cell reads as the free value of its epoch (R36, R193). -/
theorem State.dataByte_of_nil (s : State) (h : s.data = []) (a : Nat) :
    s.dataByte a = unwrittenByte s.resets a := by
  simp [State.dataByte, h, Memory.find]

end Sys2Proof.Machine
end

