-- ==== Sys2Proof/Laws/Memory.lean ====
section
/-! SUPPORT. Reads after writes of the input buffer, and its canonical form. -/

namespace Sys2Proof.Machine

/-- `BUF_BYTES` is always a legal capacity (R7). -/
theorem bufBytes_ge : 8 ≤ bufBytes := by unfold bufBytes; omega
theorem bufBytes_le : bufBytes ≤ 2 ^ 32 - 8 := by unfold bufBytes; omega
theorem bufBytes_mod : bufBytes % 8 = 0 := by unfold bufBytes; omega

/-- Every legal capacity is taken for some value of the open parameter (R7; log 1). -/
theorem bufBytes_covers (n : Nat) (h1 : 8 ≤ n) (h2 : n ≤ 2 ^ 32 - 8) (h3 : n % 8 = 0) :
    ∃ u, u % (2 ^ 29 - 1) * 8 + 8 = n := ⟨n / 8 - 1, by omega⟩

/-! ### One byte -/

@[simp] theorem Memory.find_put_same (m : Memory) (a : Nat) (v : Byte) : (Memory.put m a v).find a = some v := by
  induction m with
  | nil => simp [Memory.put, Memory.find]
  | cons c m ih =>
    obtain ⟨b, w⟩ := c
    simp only [Memory.put]
    split
    · simp [Memory.find]
    · split
      · simp [Memory.find]
      · simp [Memory.find, *]

theorem Memory.find_put_other (m : Memory) (a x : Nat) (v : Byte) (h : x ≠ a) :
    (Memory.put m a v).find x = m.find x := by
  induction m with
  | nil => simp [Memory.put, Memory.find, h]
  | cons c m ih =>
    obtain ⟨b, w⟩ := c
    simp only [Memory.put]
    split
    · simp [Memory.find, h]
    · split
      · next hab => subst hab; simp [Memory.find, h]
      · simp [Memory.find, ih]

/-- Every cell of the buffer after a write is the new one or an old one. -/
theorem Memory.mem_put (m : Memory) (a : Nat) (v : Byte) (c : Host.Cell) (h : c ∈ Memory.put m a v) :
    c = (a, v) ∨ c ∈ m := by
  induction m with
  | nil => simpa [Memory.put] using h
  | cons d m ih =>
    obtain ⟨b, w⟩ := d
    simp only [Memory.put] at h
    split at h
    · simpa using h
    · split at h
      · simp at h; rcases h with h | h <;> simp [h]
      · simp at h
        rcases h with h | h
        · simp [h]
        · rcases ih h with h | h <;> simp [h]

/-- The canonical form as a statement about the list: offsets strictly rising. -/
theorem Memory.wf_iff (m : Memory) : Memory.wf m = true ↔ m.Pairwise (fun c d => c.1 < d.1) := by
  induction m with
  | nil => simp [Memory.wf]
  | cons c m ih =>
    obtain ⟨a, v⟩ := c
    cases m with
    | nil => simp [Memory.wf]
    | cons d m =>
      obtain ⟨b, w⟩ := d
      simp only [Memory.wf, Bool.and_eq_true, decide_eq_true_eq, ih, List.pairwise_cons, List.mem_cons]
      constructor
      · rintro ⟨hab, hb, hm⟩
        refine ⟨?_, hb, hm⟩
        rintro x (rfl | hx)
        · exact hab
        · exact lt_trans hab (hb x hx)
      · rintro ⟨h1, hb, hm⟩
        exact ⟨h1 (b, w) (.inl rfl), hb, hm⟩

/-- A write of one byte keeps the canonical form. -/
theorem Memory.wf_put (m : Memory) (a : Nat) (v : Byte) (h : Memory.wf m = true) : Memory.wf (Memory.put m a v) = true := by
  rw [Memory.wf_iff] at h ⊢
  induction m with
  | nil => simp [Memory.put]
  | cons c m ih =>
    obtain ⟨b, w⟩ := c
    simp only [List.pairwise_cons] at h
    simp only [Memory.put]
    split
    · next hab =>
      simp only [List.pairwise_cons, List.mem_cons]
      refine ⟨?_, h.1, h.2⟩
      rintro x (rfl | hx)
      · exact hab
      · exact lt_trans hab (h.1 x hx)
    · split
      · next hab => subst hab; simpa using h
      · next h1 h2 =>
        simp only [List.pairwise_cons]
        refine ⟨fun x hx => ?_, ih h.2⟩
        rcases Memory.mem_put m a v x hx with rfl | hx
        · simp only; omega
        · exact h.1 x hx

/-! ### Several bytes -/

theorem Memory.wf_putBytes (n : Nat) : ∀ (m : Memory) (off : Nat) (v : Word),
    Memory.wf m = true → Memory.wf (Memory.putBytes m off n v) = true := by
  induction n with
  | zero => intro m off v h; exact h
  | succ n ih => intro m off v h; exact ih _ _ _ (Memory.wf_put m off _ h)

theorem Memory.mem_putBytes (n : Nat) : ∀ (m : Memory) (off : Nat) (v : Word) (c : Host.Cell),
    c ∈ Memory.putBytes m off n v → (off ≤ c.1 ∧ c.1 < off + n) ∨ c ∈ m := by
  induction n with
  | zero => intro m off v c h; exact .inr h
  | succ n ih =>
    intro m off v c h
    rcases ih _ _ _ _ h with h | h
    · left; omega
    · rcases Memory.mem_put m off _ c h with rfl | h
      · left; simp
      · exact .inr h

theorem Memory.find_putBytes_other (n : Nat) : ∀ (m : Memory) (off : Nat) (v : Word) (a : Nat),
    (a < off ∨ off + n ≤ a) → (Memory.putBytes m off n v).find a = m.find a := by
  induction n with
  | zero => intros; rfl
  | succ n ih =>
    intro m off v a h
    rw [Memory.putBytes, ih _ _ _ _ (by omega), Memory.find_put_other _ _ _ _ (by omega)]

theorem Memory.find_putBytes_same (n : Nat) : ∀ (m : Memory) (off : Nat) (v : Word) (j : Nat), j < n →
    (Memory.putBytes m off n v).find (off + j) = some (v.extractLsb' (8 * j) 8) := by
  induction n with
  | zero => intro m off v j h; omega
  | succ n ih =>
    intro m off v j h
    rw [Memory.putBytes]
    cases j with
    | zero =>
      rw [Memory.find_putBytes_other _ _ _ _ _ (by omega)]
      simp only [Nat.add_zero, Memory.find_put_same, Nat.mul_zero]
      congr 1
    | succ j =>
      have : off + (j + 1) = off + 1 + j := by omega
      rw [this, ih _ _ _ _ (by omega)]
      congr 1
      ext i hi
      simp only [BitVec.getElem_extractLsb', BitVec.getLsbD_ushiftRight]
      congr 1; omega

/-- A byte a write stores (R56). -/
theorem State.dataByte_dataWrite_same (s : State) (off n : Nat) (v : Word) (j : Nat) (h : j < n) :
    (s.dataWrite off n v).dataByte (off + j) = v.extractLsb' (8 * j) 8 := by
  simp [State.dataByte, State.dataWrite, Memory.find_putBytes_same, h]

/-- A byte a write does not store (R56). -/
theorem State.dataByte_dataWrite_other (s : State) (off n : Nat) (v : Word) (a : Nat) (h : a < off ∨ off + n ≤ a) :
    (s.dataWrite off n v).dataByte a = s.dataByte a := by
  simp [State.dataByte, State.dataWrite, Memory.find_putBytes_other _ _ _ _ _ h]

/-! ### Little-endian reads -/

theorem leNat_lt (d : Nat → Byte) (n : Nat) : ∀ off, leNat d off n < 256 ^ n := by
  induction n with
  | zero => intro off; simp [leNat]
  | succ n ih =>
    intro off
    have h1 := ih (off + 1)
    have h2 := (d off).isLt
    simp only [leNat, pow_succ]
    omega

/-- A read depends on the bytes it reads only. -/
theorem leNat_congr (d e : Nat → Byte) (n : Nat) : ∀ off, (∀ a, off ≤ a → a < off + n → d a = e a) →
    leNat d off n = leNat e off n := by
  induction n with
  | zero => intros; rfl
  | succ n ih =>
    intro off h
    simp only [leNat]
    rw [h off (by omega) (by omega), ih (off + 1) (fun a h1 h2 => h a (by omega) (by omega))]

/-- Two reads agree only where all their bytes agree. -/
theorem leNat_inj (d e : Nat → Byte) (n : Nat) : ∀ off, leNat d off n = leNat e off n →
    ∀ a, off ≤ a → a < off + n → d a = e a := by
  induction n with
  | zero => intro off _ a h1 h2; omega
  | succ n ih =>
    intro off h a h1 h2
    simp only [leNat] at h
    have hd := (d off).isLt
    have he := (e off).isLt
    rcases Nat.eq_or_lt_of_le h1 with rfl | h1
    · apply BitVec.eq_of_toNat_eq; omega
    · exact ih (off + 1) (by omega) a (by omega) (by omega)

/-- A read as R52's sum. -/
theorem leNat_eq_sum (d : Nat → Byte) (n : Nat) : ∀ off,
    leNat d off n = ∑ j ∈ Finset.range n, (d (off + j)).toNat * 2 ^ (8 * j) := by
  induction n with
  | zero => intro off; simp [leNat]
  | succ n ih =>
    intro off
    rw [leNat, ih, Finset.sum_range_succ', Finset.mul_sum, Nat.add_comm]
    simp only [Nat.mul_zero, pow_zero, Nat.mul_one, Nat.add_zero]
    congr 1
    refine Finset.sum_congr rfl fun j _ => ?_
    rw [Nat.add_right_comm off 1 j, Nat.add_assoc off j 1, Nat.mul_add, pow_add]
    ring

theorem toNat_group32 (d : Nat → Byte) (off : Nat) : (group32 d off).toNat = leNat d off 4 := by
  simp only [group32, BitVec.toNat_ofNat]
  exact Nat.mod_eq_of_lt (leNat_lt d 4 off)

theorem toNat_group64 (d : Nat → Byte) (off : Nat) : (group64 d off).toNat = leNat d off 8 := by
  simp only [group64, BitVec.toNat_ofNat]
  exact Nat.mod_eq_of_lt (leNat_lt d 8 off)

theorem toNat_append_byte {n : Nat} (h : BitVec n) (b : Byte) : (h ++ b).toNat = b.toNat + 256 * h.toNat := by
  have hb := b.isLt
  rw [BitVec.toNat_append, ← Nat.shiftLeft_add_eq_or_of_lt hb, Nat.shiftLeft_eq]
  omega

/-- A 32-bit group as the concatenation of its bytes (R52). -/
theorem group32_eq_append (d : Nat → Byte) (off : Nat) :
    group32 d off = d (off + 3) ++ d (off + 2) ++ d (off + 1) ++ d off := by
  apply BitVec.eq_of_toNat_eq
  rw [toNat_group32]
  simp [leNat, toNat_append_byte, Nat.add_assoc]

/-- A 64-bit group as the concatenation of its bytes (R52). -/
theorem group64_eq_append (d : Nat → Byte) (off : Nat) :
    group64 d off = d (off + 7) ++ d (off + 6) ++ d (off + 5) ++ d (off + 4) ++
      d (off + 3) ++ d (off + 2) ++ d (off + 1) ++ d off := by
  apply BitVec.eq_of_toNat_eq
  rw [toNat_group64]
  simp [leNat, toNat_append_byte, Nat.add_assoc]

end Sys2Proof.Machine
end

