-- ==== Sys2Proof/Laws/Murmur.lean ====
section
/-! SUPPORT. Laws of the pure functions of the two units: what a read, a tail and a mix depend on, and which of them are injective (spec/41_hash32_path.md R122, R124, R126; spec/42_hash64_path.md R142, R144, R146). -/

namespace Sys2Proof.Machine

/-! ### The tail as one little-endian value -/

/-- A read with its highest byte split off. -/
theorem leNat_succ_top (d : Nat → Byte) (off n : Nat) :
    leNat d off (n + 1) = leNat d off n + (d (off + n)).toNat * 2 ^ (8 * n) := by
  rw [leNat_eq_sum, leNat_eq_sum, Finset.sum_range_succ]

theorem nat_xor_disjoint (x y k : Nat) (h : x < 2 ^ k) : x ^^^ (y * 2 ^ k) = x + y * 2 ^ k := by
  rw [Nat.add_comm, Nat.mul_comm, Nat.two_pow_add_eq_or_of_lt h]
  apply Nat.eq_of_testBit_eq
  intro i
  simp only [Nat.testBit_xor, Nat.testBit_or, Nat.testBit_two_pow_mul]
  by_cases hi : k ≤ i
  · have : x.testBit i = false := Nat.testBit_lt_two_pow (lt_of_lt_of_le h (Nat.pow_le_pow_right (by omega) hi))
    simp [hi, this]
  · simp [hi]

/-- Adding one byte on top is an XOR with the shifted byte: the ranges are disjoint (R124, R144 "Equivalently"). -/
theorem ofNat_leNat_succ (w : Nat) (d : Nat → Byte) (off n : Nat) (hw : 8 * (n + 1) ≤ w) :
    BitVec.ofNat w (leNat d off (n + 1)) =
      BitVec.ofNat w (leNat d off n) ^^^ ((d (off + n)).setWidth w <<< (8 * n)) := by
  have hx : leNat d off n < 2 ^ (8 * n) := by
    have := leNat_lt d n off
    rwa [show (256 : Nat) = 2 ^ 8 from rfl, ← pow_mul] at this
  have hb := (d (off + n)).isLt
  have hp : (2 : Nat) ^ (8 * (n + 1)) ≤ 2 ^ w := Nat.pow_le_pow_right (by omega) hw
  have hq : (2 : Nat) ^ (8 * n) * 2 ^ 8 = 2 ^ (8 * (n + 1)) := by rw [← pow_add]; congr 1
  have hy : (d (off + n)).toNat * 2 ^ (8 * n) < 2 ^ w := by
    calc _ < 2 ^ 8 * 2 ^ (8 * n) := Nat.mul_lt_mul_of_pos_right hb (by positivity)
      _ ≤ 2 ^ w := by rw [Nat.mul_comm, hq]; exact hp
  have h8 : (2 : Nat) ^ 8 ≤ 2 ^ w := Nat.pow_le_pow_right (by omega) (by omega)
  have hxw : leNat d off n < 2 ^ w := lt_of_lt_of_le hx (Nat.pow_le_pow_right (by omega) (by omega))
  apply BitVec.eq_of_toNat_eq
  have h9 := leNat_lt d (n + 1) off
  rw [show (256 : Nat) = 2 ^ 8 from rfl, ← pow_mul] at h9
  simp only [BitVec.toNat_ofNat, BitVec.toNat_xor, BitVec.toNat_shiftLeft, BitVec.toNat_setWidth, Nat.shiftLeft_eq]
  rw [Nat.mod_eq_of_lt (lt_of_lt_of_le h9 hp), Nat.mod_eq_of_lt hxw,
    Nat.mod_eq_of_lt (lt_of_lt_of_le hb h8), Nat.mod_eq_of_lt hy, nat_xor_disjoint _ _ _ hx, leNat_succ_top]

theorem ofNat_leNat_one (w : Nat) (d : Nat → Byte) (off : Nat) :
    BitVec.ofNat w (leNat d off 1) = (d off).setWidth w := by
  simp [leNat, BitVec.ofNat_toNat]

/-- R124, "Equivalently". -/
theorem tail32_eq (d : Nat → Byte) (t rem : Nat) (h : Word) (hr : rem ≤ 3) :
    tail32 h rem (d t) (d (t + 1)) (d (t + 2)) =
      if rem = 0 then h else (h ^^^ BitVec.ofNat 32 (leNat d t rem)) * m32 := by
  obtain rfl | rfl | rfl | rfl : rem = 0 ∨ rem = 1 ∨ rem = 2 ∨ rem = 3 := by omega
  · simp [tail32]
  · simp only [tail32, Nat.reduceEqDiff, Nat.reduceLeDiff, if_true, if_false, le_refl]
    rw [ofNat_leNat_one]
  · simp only [tail32, Nat.reduceEqDiff, Nat.reduceLeDiff, if_true, if_false, le_refl]
    rw [ofNat_leNat_succ 32 d t 1 (by omega), ofNat_leNat_one]
    simp only [Nat.reduceMul]
    generalize (d (t + 1)).setWidth 32 <<< 8 = x1
    generalize (d t).setWidth 32 = x0
    congr 1
    simp only [BitVec.xor_assoc]
    congr 1
    ac_rfl
  · simp only [tail32, Nat.reduceEqDiff, Nat.reduceLeDiff, if_true, if_false]
    rw [ofNat_leNat_succ 32 d t 2 (by omega), ofNat_leNat_succ 32 d t 1 (by omega), ofNat_leNat_one]
    simp only [Nat.reduceMul]
    generalize (d (t + 2)).setWidth 32 <<< 16 = x2
    generalize (d (t + 1)).setWidth 32 <<< 8 = x1
    generalize (d t).setWidth 32 = x0
    congr 1
    simp only [BitVec.xor_assoc]
    congr 1
    ac_rfl

/-- R144, "Equivalently". -/
theorem tail64_eq (d : Nat → Byte) (t rem : Nat) (h : DWord) (hr : rem ≤ 7) :
    tail64 h rem (d t) (d (t + 1)) (d (t + 2)) (d (t + 3)) (d (t + 4)) (d (t + 5)) (d (t + 6)) =
      if rem = 0 then h else (h ^^^ BitVec.ofNat 64 (leNat d t rem)) * m64 := by
  obtain rfl | rfl | rfl | rfl | rfl | rfl | rfl | rfl :
    rem = 0 ∨ rem = 1 ∨ rem = 2 ∨ rem = 3 ∨ rem = 4 ∨ rem = 5 ∨ rem = 6 ∨ rem = 7 := by omega
  · simp [tail64]
  · simp only [tail64, Nat.reduceEqDiff, Nat.reduceLeDiff, if_true, if_false, le_refl]
    rw [ofNat_leNat_one]
  · simp only [tail64, Nat.reduceEqDiff, Nat.reduceLeDiff, if_true, if_false, le_refl]
    rw [ofNat_leNat_succ 64 d t 1 (by omega), ofNat_leNat_one]
    simp only [Nat.reduceMul]
    generalize (d (t + 1)).setWidth 64 <<< 8 = x1
    generalize (d t).setWidth 64 = x0
    congr 1
    simp only [BitVec.xor_assoc]
    congr 1
    ac_rfl
  · simp only [tail64, Nat.reduceEqDiff, Nat.reduceLeDiff, if_true, if_false, le_refl]
    rw [ofNat_leNat_succ 64 d t 2 (by omega), ofNat_leNat_succ 64 d t 1 (by omega), ofNat_leNat_one]
    simp only [Nat.reduceMul]
    generalize (d (t + 2)).setWidth 64 <<< 16 = x2
    generalize (d (t + 1)).setWidth 64 <<< 8 = x1
    generalize (d t).setWidth 64 = x0
    congr 1
    simp only [BitVec.xor_assoc]
    congr 1
    ac_rfl
  · simp only [tail64, Nat.reduceEqDiff, Nat.reduceLeDiff, if_true, if_false, le_refl]
    rw [ofNat_leNat_succ 64 d t 3 (by omega), ofNat_leNat_succ 64 d t 2 (by omega), ofNat_leNat_succ 64 d t 1 (by omega), ofNat_leNat_one]
    simp only [Nat.reduceMul]
    generalize (d (t + 3)).setWidth 64 <<< 24 = x3
    generalize (d (t + 2)).setWidth 64 <<< 16 = x2
    generalize (d (t + 1)).setWidth 64 <<< 8 = x1
    generalize (d t).setWidth 64 = x0
    congr 1
    simp only [BitVec.xor_assoc]
    congr 1
    ac_rfl
  · simp only [tail64, Nat.reduceEqDiff, Nat.reduceLeDiff, if_true, if_false, le_refl]
    rw [ofNat_leNat_succ 64 d t 4 (by omega), ofNat_leNat_succ 64 d t 3 (by omega), ofNat_leNat_succ 64 d t 2 (by omega), ofNat_leNat_succ 64 d t 1 (by omega), ofNat_leNat_one]
    simp only [Nat.reduceMul]
    generalize (d (t + 4)).setWidth 64 <<< 32 = x4
    generalize (d (t + 3)).setWidth 64 <<< 24 = x3
    generalize (d (t + 2)).setWidth 64 <<< 16 = x2
    generalize (d (t + 1)).setWidth 64 <<< 8 = x1
    generalize (d t).setWidth 64 = x0
    congr 1
    simp only [BitVec.xor_assoc]
    congr 1
    ac_rfl
  · simp only [tail64, Nat.reduceEqDiff, Nat.reduceLeDiff, if_true, if_false, le_refl]
    rw [ofNat_leNat_succ 64 d t 5 (by omega), ofNat_leNat_succ 64 d t 4 (by omega), ofNat_leNat_succ 64 d t 3 (by omega), ofNat_leNat_succ 64 d t 2 (by omega), ofNat_leNat_succ 64 d t 1 (by omega), ofNat_leNat_one]
    simp only [Nat.reduceMul]
    generalize (d (t + 5)).setWidth 64 <<< 40 = x5
    generalize (d (t + 4)).setWidth 64 <<< 32 = x4
    generalize (d (t + 3)).setWidth 64 <<< 24 = x3
    generalize (d (t + 2)).setWidth 64 <<< 16 = x2
    generalize (d (t + 1)).setWidth 64 <<< 8 = x1
    generalize (d t).setWidth 64 = x0
    congr 1
    simp only [BitVec.xor_assoc]
    congr 1
    ac_rfl
  · simp only [tail64, Nat.reduceEqDiff, Nat.reduceLeDiff, if_true, if_false]
    rw [ofNat_leNat_succ 64 d t 6 (by omega), ofNat_leNat_succ 64 d t 5 (by omega), ofNat_leNat_succ 64 d t 4 (by omega), ofNat_leNat_succ 64 d t 3 (by omega), ofNat_leNat_succ 64 d t 2 (by omega), ofNat_leNat_succ 64 d t 1 (by omega), ofNat_leNat_one]
    simp only [Nat.reduceMul]
    generalize (d (t + 6)).setWidth 64 <<< 48 = x6
    generalize (d (t + 5)).setWidth 64 <<< 40 = x5
    generalize (d (t + 4)).setWidth 64 <<< 32 = x4
    generalize (d (t + 3)).setWidth 64 <<< 24 = x3
    generalize (d (t + 2)).setWidth 64 <<< 16 = x2
    generalize (d (t + 1)).setWidth 64 <<< 8 = x1
    generalize (d t).setWidth 64 = x0
    congr 1
    simp only [BitVec.xor_assoc]
    congr 1
    ac_rfl

/-! ### The length's parts -/

theorem toNat_nblk32 (l : Word) : (nblk32 l).toNat = l.toNat / 4 := by
  simp [nblk32, Nat.shiftRight_eq_div_pow]

theorem toNat_nblk64 (l : Word) : (nblk64 l).toNat = l.toNat / 8 := by
  simp [nblk64, Nat.shiftRight_eq_div_pow]

theorem rem32_eq (l : Word) : rem32 l = l.toNat % 4 := by
  simp only [rem32, BitVec.toNat_and, BitVec.toNat_ofNat]
  exact Nat.and_two_pow_sub_one_eq_mod l.toNat 2

theorem rem64_eq (l : Word) : rem64 l = l.toNat % 8 := by
  simp only [rem64, BitVec.toNat_and, BitVec.toNat_ofNat]
  exact Nat.and_two_pow_sub_one_eq_mod l.toNat 3

theorem clear_low_bits (l : Word) (k : Nat) (m : Word)
    (hm : ∀ i, i < 32 → m.getLsbD i = decide (k ≤ i)) : (l &&& m).toNat = 2 ^ k * (l.toNat / 2 ^ k) := by
  have : l &&& m = (l >>> k) <<< k := by
    ext i hi
    simp only [BitVec.getElem_and, BitVec.getElem_shiftLeft]
    rw [← BitVec.getLsbD_eq_getElem hi, ← BitVec.getLsbD_eq_getElem hi, hm i hi]
    by_cases h : k ≤ i
    · have h1 : ¬ i < k := by omega
      have h2 : k + (i - k) = i := by omega
      simp [h, h1, h2]
    · have h1 : i < k := by omega
      simp [h, h1]
  rw [this, BitVec.toNat_shiftLeft, BitVec.toNat_ushiftRight, Nat.shiftLeft_eq, Nat.shiftRight_eq_div_pow,
    Nat.mul_comm]
  apply Nat.mod_eq_of_lt
  exact lt_of_le_of_lt (Nat.mul_div_le l.toNat (2 ^ k)) l.isLt

theorem tailBase32_eq (l : Word) : tailBase32 l = 4 * (l.toNat / 4) :=
  clear_low_bits l 2 _ (by decide)

theorem tailBase64_eq (l : Word) : tailBase64 l = 8 * (l.toNat / 8) :=
  clear_low_bits l 3 _ (by decide)

/-! ### What the closed forms depend on -/

theorem group32_congr (d e : Nat → Byte) (off : Nat) (h : ∀ a, off ≤ a → a < off + 4 → d a = e a) :
    group32 d off = group32 e off := by
  rw [group32, group32, leNat_congr d e 4 off h]

theorem group64_congr (d e : Nat → Byte) (off : Nat) (h : ∀ a, off ≤ a → a < off + 8 → d a = e a) :
    group64 d off = group64 e off := by
  rw [group64, group64, leNat_congr d e 8 off h]

theorem blocks32_congr (d e : Nat → Byte) (h : Word) (n : Nat) (hde : ∀ a, a < 4 * n → d a = e a) :
    blocks32 d h n = blocks32 e h n := by
  induction n with
  | zero => rfl
  | succ n ih =>
    rw [blocks32, blocks32, ih (fun a ha => hde a (by omega)),
      group32_congr d e _ (fun a _ h2 => hde a (by omega))]

theorem blocks64_congr (d e : Nat → Byte) (h : DWord) (n : Nat) (hde : ∀ a, a < 8 * n → d a = e a) :
    blocks64 d h n = blocks64 e h n := by
  induction n with
  | zero => rfl
  | succ n ih =>
    rw [blocks64, blocks64, ih (fun a ha => hde a (by omega)),
      group64_congr d e _ (fun a _ h2 => hde a (by omega))]

/-! ### Injectivity of the steps -/

/-- `x -> x xor lsr(x, k)` with `k > 0` is injective (R122 "derived"). -/
theorem xorShift_inj {w : Nat} (k : Nat) (hk : 0 < k) (x y : BitVec w) (h : x ^^^ (x >>> k) = y ^^^ (y >>> k)) :
    x = y := by
  have key : ∀ n i, w - i ≤ n → x.getLsbD i = y.getLsbD i := by
    intro n
    induction n with
    | zero => intro i hi; rw [BitVec.getLsbD_of_ge x i (by omega), BitVec.getLsbD_of_ge y i (by omega)]
    | succ n ih =>
      intro i hi
      have hb := congrArg (fun z => z.getLsbD i) h
      simp only [BitVec.getLsbD_xor, BitVec.getLsbD_ushiftRight] at hb
      by_cases hiw : w ≤ i
      · rw [BitVec.getLsbD_of_ge x i hiw, BitVec.getLsbD_of_ge y i hiw]
      · rw [ih (k + i) (by omega)] at hb
        exact Bool.xor_left_inj.mp hb |> fun h => h
  exact BitVec.eq_of_getLsbD_eq (fun i _ => key w i (by omega))

/-- The multiplicative inverses of the two odd multipliers. -/
theorem m32_inv : m32 * 0xe59b19bd#32 = 1#32 := by decide
theorem m64_inv : m64 * 0x5f7a0ea7e59b19bd#64 = 1#64 := by decide

theorem mul_m32_inj (x y : Word) (h : x * m32 = y * m32) : x = y := by
  have := congrArg (· * 0xe59b19bd#32) h
  simpa [BitVec.mul_assoc, m32_inv] using this

theorem mul_m64_inj (x y : DWord) (h : x * m64 = y * m64) : x = y := by
  have := congrArg (· * 0x5f7a0ea7e59b19bd#64) h
  simpa [BitVec.mul_assoc, m64_inv] using this

theorem xor_right_inj {w : Nat} (x y c : BitVec w) (h : x ^^^ c = y ^^^ c) : x = y := by
  have := congrArg (· ^^^ c) h
  simpa [BitVec.xor_assoc] using this

theorem xor_left_inj {w : Nat} (x y c : BitVec w) (h : c ^^^ x = c ^^^ y) : x = y := by
  apply xor_right_inj x y c; rw [BitVec.xor_comm, h, BitVec.xor_comm]

end Sys2Proof.Machine
end

