-- ==== Sys2Proof/Laws/PerInstr.lean ====
section
/-! SUPPORT. Statements about every instruction as syntax, one lemma per constructor. -/

namespace Sys2Proof.Laws

/-- The row of spec/opcode_table.json for an instruction: its bits in whole bytes, and its `match`. -/
def tableRow : Instr → Nat × Nat
  | .hash32 => (32, 0x00000001)
  | .hash64 => (32, 0x00000002)
  | .hash32d => (32, 0x00000005)
  | .hash64d => (32, 0x00000006)
  | .init32 => (8, 0x1)
  | .block32 => (8, 0x2)
  | .tail32 => (8, 0x3)
  | .final32 => (8, 0x4)
  | .init64 => (8, 0x9)
  | .block64 => (8, 0xA)
  | .tail64 => (8, 0xB)
  | .final64 => (8, 0xC)

/-- The instruction is well formed, and the word of its row decodes to it (R82, R84). -/
def TableWord.Statement (i : Instr) : Prop :=
  i.wf = true ∧ decodeTableWord (tableRow i).1 (tableRow i).2 = some i

theorem TableWord.hash32 : TableWord.Statement .hash32 := ⟨rfl, by decide⟩
theorem TableWord.hash64 : TableWord.Statement .hash64 := ⟨rfl, by decide⟩
theorem TableWord.hash32d : TableWord.Statement .hash32d := ⟨rfl, by decide⟩
theorem TableWord.hash64d : TableWord.Statement .hash64d := ⟨rfl, by decide⟩
theorem TableWord.init32 : TableWord.Statement .init32 := ⟨rfl, by decide⟩
theorem TableWord.block32 : TableWord.Statement .block32 := ⟨rfl, by decide⟩
theorem TableWord.tail32 : TableWord.Statement .tail32 := ⟨rfl, by decide⟩
theorem TableWord.final32 : TableWord.Statement .final32 := ⟨rfl, by decide⟩
theorem TableWord.init64 : TableWord.Statement .init64 := ⟨rfl, by decide⟩
theorem TableWord.block64 : TableWord.Statement .block64 := ⟨rfl, by decide⟩
theorem TableWord.tail64 : TableWord.Statement .tail64 := ⟨rfl, by decide⟩
theorem TableWord.final64 : TableWord.Statement .final64 := ⟨rfl, by decide⟩

end Sys2Proof.Laws
end

