-- ==== Sys2Proof/Laws/Step.lean ====
section
/-! SUPPORT. What each shared operation and one step can do, said once: completion, inversion, and the decoder's table. -/

namespace Sys2Proof.Machine

/-! ### The decoder -/

theorem phase_codes (p : BitVec 3) : p = 0#3 ∨ p = 1#3 ∨ p = 2#3 ∨ p = 3#3 ∨ p = 4#3 ∨ p = 5#3 ∨ p = 6#3 ∨ p = 7#3 := by
  revert p; decide

/-- The selection table, read backwards (R84). -/
theorem decodeSelector_ok (v : Bool) (p : BitVec 3) (i : Instr) (h : decodeSelector (selectorOf v p) = .ok i) :
    (p = phaseInit ∧ i = if v then .init64 else .init32) ∨ (p = phaseBlock ∧ i = if v then .block64 else .block32) ∨
    (p = phaseTail ∧ i = if v then .tail64 else .tail32) ∨ (p = phaseFinal ∧ i = if v then .final64 else .final32) := by
  rcases phase_codes p with rfl | rfl | rfl | rfl | rfl | rfl | rfl | rfl <;> cases v <;> revert h <;>
    (intro h; cases h) <;> decide

/-- With `PHASE` IDLE or a code above 4 there is no step (R84, R85). -/
theorem decodeSelector_error (v : Bool) (p : BitVec 3) (e : Rejection)
    (h : decodeSelector (selectorOf v p) = .error e) : p = phaseIdle ∨ 5 ≤ p.toNat := by
  rcases phase_codes p with rfl | rfl | rfl | rfl | rfl | rfl | rfl | rfl <;> cases v <;> revert h <;>
    (intro h; cases h) <;> decide

/-- A command word that decodes is one of the four (R82). -/
theorem decodeCommand_four (w : Word) (i : Instr) (h : decodeCommand w = .ok i) :
    w = 1#32 ∨ w = 2#32 ∨ w = 5#32 ∨ w = 6#32 := by
  unfold decodeCommand at h
  have hw : w = w.extractLsb' 3 29 ++ BitVec.ofBool (w.getLsbD 2) ++ w.extractLsb' 0 2 := by
    apply BitVec.eq_of_getLsbD_eq
    intro i hi
    have : (w.extractLsb' 3 29 ++ BitVec.ofBool (w.getLsbD 2) ++ w.extractLsb' 0 2 : BitVec (29 + 1 + 2)).getLsbD i = w.getLsbD i := by
      rw [BitVec.getLsbD_append, BitVec.getLsbD_append]
      simp only [BitVec.getLsbD_extractLsb', BitVec.getLsbD_ofBool]
      split
      · next h => simp [h]
      · split
        · next h1 h2 => rw [show i = 2 by omega]; simp
        · rw [show 3 + (i - 2 - 1) = i by omega]; simp; omega
    exact this.symm
  simp only at h
  split at h
  · cases h
  · next hr =>
    simp only [ne_eq, not_not] at hr
    rw [hr] at hw
    split at h
    · next hu => rw [hu] at hw; cases hd : w.getLsbD 2 <;> rw [hd] at hw <;> simp at hw <;> simp [hw]
    · split at h
      · next hu => rw [hu] at hw; cases hd : w.getLsbD 2 <;> rw [hd] at hw <;> simp at hw <;> simp [hw]
      · cases h

/-- Each command word decodes to its instruction (R82). -/
theorem decodeCommand_commandCode (u : HashUnit) (d : Bool) : decodeCommand (commandCode u d) = .ok (commandInstr u d) := by
  cases u <;> cases d <;> rfl

/-- A command word that decodes, by unit and default-seed bit. -/
theorem decodeCommand_ok (w : Word) (i : Instr) (h : decodeCommand w = .ok i) :
    ∃ u d, w = commandCode u d ∧ i = commandInstr u d := by
  rcases decodeCommand_four w i h with rfl | rfl | rfl | rfl
  · exact ⟨.u32, false, rfl, by cases h; rfl⟩
  · exact ⟨.u64, false, rfl, by cases h; rfl⟩
  · exact ⟨.u32, true, rfl, by cases h; rfl⟩
  · exact ⟨.u64, true, rfl, by cases h; rfl⟩

/-! ### Commands -/

theorem exec_commandInstr (u : HashUnit) (d : Bool) (s : State) : exec (commandInstr u d) s = execCommand u d s := by
  cases u <;> cases d <;> rfl

theorem execCommand_busy (u : HashUnit) (d : Bool) (s : State) (h : s.phase ≠ phaseIdle) :
    execCommand u d s = .next (s.refuse none .busy) := by
  simp [execCommand, (State.busy_eq_true_iff s).mpr h]

theorem execCommand_idle (u : HashUnit) (d : Bool) (s : State) (h : s.phase = phaseIdle) :
    execCommand u d s = .next (s.accept u d) := by
  simp [execCommand, (State.busy_eq_false_iff s).mpr h]

/-- Acceptance within bounds (R101). -/
theorem accept_inBounds (s : State) (u : HashUnit) (d : Bool) (h : s.len.toNat ≤ min s.dsize.toNat bufBytes) :
    s.accept u d = { s with
      var := HashUnit.bit u, seed := s.commandSeed u d, result := 0#64, done := false, err := false,
      phase := phaseInit, reply := some { resp := .okay, rdata := none, reason := none } } := by
  simp [State.accept, (State.not_outOfBounds_iff s).mpr h, State.beginCommand, State.okayWrite]

/-- Acceptance that raises `Bounds` (R101, R161). -/
theorem accept_outOfBounds (s : State) (u : HashUnit) (d : Bool) (h : min s.dsize.toNat bufBytes < s.len.toNat) :
    s.accept u d = { s with
      var := HashUnit.bit u, seed := s.commandSeed u d, result := 0#64, done := false, err := true,
      reply := some { resp := .okay, rdata := none, reason := none } } := by
  simp [State.accept, (State.outOfBounds_iff s).mpr h, State.beginCommand, State.raiseBounds, State.okayWrite]

/-! ### Reads of the sequencer -/

theorem inBuffer_iff (off n : Nat) : inBuffer off n = true ↔ n = 0 ∨ off + n ≤ bufBytes := by
  simp [inBuffer]

theorem guardRead_in (off n : Nat) (k : Host.Outcome State Fault Refusal) (h : n = 0 ∨ off + n ≤ bufBytes) :
    guardRead off n k = k := by
  simp [guardRead, (inBuffer_iff off n).mpr h]

theorem guardRead_next (off n : Nat) (k : Host.Outcome State Fault Refusal) (t : State)
    (h : guardRead off n k = .next t) : (n = 0 ∨ off + n ≤ bufBytes) ∧ k = .next t := by
  unfold guardRead at h
  split at h
  · next hin => exact ⟨(inBuffer_iff off n).mp hin, h⟩
  · cases h

theorem dataRead32 (s : State) (off : Nat) : BitVec.ofNat 32 (s.dataRead off 4) = group32 s.dataByte off := rfl
theorem dataRead64 (s : State) (off : Nat) : BitVec.ofNat 64 (s.dataRead off 8) = group64 s.dataByte off := rfl

theorem tailByte_present (s : State) (t rem j : Nat) (h : j < rem) : s.tailByte t rem j = s.dataByte (t + j) := by
  simp only [State.tailByte]
  rw [if_pos (by omega)]

/-- Absent tail bytes take no part (R124). -/
theorem tail32_tailByte (s : State) (h : Word) (t rem : Nat) (hr : rem ≤ 3) :
    tail32 h rem (s.tailByte t rem 0) (s.tailByte t rem 1) (s.tailByte t rem 2) =
      tail32 h rem (s.dataByte t) (s.dataByte (t + 1)) (s.dataByte (t + 2)) := by
  obtain rfl | rfl | rfl | rfl : rem = 0 ∨ rem = 1 ∨ rem = 2 ∨ rem = 3 := by omega
  all_goals simp only [tail32, State.tailByte, Nat.reduceLeDiff, Nat.reduceEqDiff, Nat.reduceAdd, if_true, if_false,
    Nat.add_zero, Nat.zero_add, le_refl]

/-- Absent tail bytes take no part (R144). -/
theorem tail64_tailByte (s : State) (h : DWord) (t rem : Nat) (hr : rem ≤ 7) :
    tail64 h rem (s.tailByte t rem 0) (s.tailByte t rem 1) (s.tailByte t rem 2) (s.tailByte t rem 3)
        (s.tailByte t rem 4) (s.tailByte t rem 5) (s.tailByte t rem 6) =
      tail64 h rem (s.dataByte t) (s.dataByte (t + 1)) (s.dataByte (t + 2)) (s.dataByte (t + 3)) (s.dataByte (t + 4))
        (s.dataByte (t + 5)) (s.dataByte (t + 6)) := by
  obtain rfl | rfl | rfl | rfl | rfl | rfl | rfl | rfl :
    rem = 0 ∨ rem = 1 ∨ rem = 2 ∨ rem = 3 ∨ rem = 4 ∨ rem = 5 ∨ rem = 6 ∨ rem = 7 := by omega
  all_goals simp only [tail64, State.tailByte, Nat.reduceLeDiff, Nat.reduceEqDiff, Nat.reduceAdd, if_true, if_false,
    Nat.add_zero, Nat.zero_add, le_refl]

theorem rem32_le (l : Word) : rem32 l ≤ 3 := by rw [rem32_eq]; omega
theorem rem64_le (l : Word) : rem64 l ≤ 7 := by rw [rem64_eq]; omega

/-! ### Micro-operations: what a next state is -/

/-- The state after `TAIL32` (R125), over the buffer's bytes. -/
theorem execTail32_eq (s : State) : execTail32 s = guardRead (tailBase32 s.len) (rem32 s.len)
    (.next { s with h32 := s.tailed32 s.h32, phase := phaseFinal }) := by
  simp only [execTail32, State.tailed32, tail32_tailByte _ _ _ _ (rem32_le s.len)]

/-- The state after `TAIL64` (R145), over the buffer's bytes. -/
theorem execTail64_eq (s : State) : execTail64 s = guardRead (tailBase64 s.len) (rem64 s.len)
    (.next { s with h64 := s.tailed64 s.h64, phase := phaseFinal }) := by
  simp only [execTail64, State.tailed64, tail64_tailByte _ _ _ _ (rem64_le s.len)]

/-- What one micro-operation does, by phase and unit. -/
theorem micro_cases (s t : State) (i : Instr) (hi : decodeSelector s.selector = .ok i) (h : exec i s = .next t) :
    (s.phase = phaseInit ∧ s.var = false ∧ t = { s with
      h32 := init32 s.seed s.len, cnt := 0#32, phase := if nblk32 s.len ≠ 0#32 then phaseBlock else phaseTail }) ∨
    (s.phase = phaseInit ∧ s.var = true ∧ t = { s with
      h64 := init64 s.seed s.len, cnt := 0#32, phase := if nblk64 s.len ≠ 0#32 then phaseBlock else phaseTail }) ∨
    (s.phase = phaseBlock ∧ s.var = false ∧ 4 * s.cnt.toNat + 4 ≤ bufBytes ∧ t = { s with
      h32 := mixBlock32 s.h32 (group32 s.dataByte (4 * s.cnt.toNat)), cnt := s.cnt + 1#32
      phase := if s.cnt + 1#32 < nblk32 s.len then phaseBlock else phaseTail }) ∨
    (s.phase = phaseBlock ∧ s.var = true ∧ 8 * s.cnt.toNat + 8 ≤ bufBytes ∧ t = { s with
      h64 := mixBlock64 s.h64 (group64 s.dataByte (8 * s.cnt.toNat)), cnt := s.cnt + 1#32
      phase := if s.cnt + 1#32 < nblk64 s.len then phaseBlock else phaseTail }) ∨
    (s.phase = phaseTail ∧ s.var = false ∧ t = { s with h32 := s.tailed32 s.h32, phase := phaseFinal }) ∨
    (s.phase = phaseTail ∧ s.var = true ∧ t = { s with h64 := s.tailed64 s.h64, phase := phaseFinal }) ∨
    (s.phase = phaseFinal ∧ s.var = false ∧ t = { s with
      h32 := fmix32 s.h32, result := (fmix32 s.h32).setWidth 64, done := true, phase := phaseIdle }) ∨
    (s.phase = phaseFinal ∧ s.var = true ∧ t = { s with
      h64 := fmix64 s.h64, result := fmix64 s.h64, done := true, phase := phaseIdle }) := by
  cases hv : s.var with
  | false =>
    rcases decodeSelector_ok _ _ _ hi with ⟨hp, rfl⟩ | ⟨hp, rfl⟩ | ⟨hp, rfl⟩ | ⟨hp, rfl⟩ <;>
      simp only [hv, Bool.false_eq_true, if_false] at h
    · cases h; exact .inl ⟨hp, rfl, by rw [hv]⟩
    · obtain ⟨hg, h⟩ := guardRead_next _ _ _ _ h
      cases h; exact .inr (.inr (.inl ⟨hp, rfl, by simpa [State.groupOff32] using hg, by rw [hv]; rfl⟩))
    · simp only [exec, execTail32_eq] at h
      obtain ⟨hg, h⟩ := guardRead_next _ _ _ _ h
      cases h; exact .inr (.inr (.inr (.inr (.inl ⟨hp, rfl, by rw [hv]⟩))))
    · cases h; exact .inr (.inr (.inr (.inr (.inr (.inr (.inl ⟨hp, rfl, by rw [hv]⟩))))))
  | true =>
    rcases decodeSelector_ok _ _ _ hi with ⟨hp, rfl⟩ | ⟨hp, rfl⟩ | ⟨hp, rfl⟩ | ⟨hp, rfl⟩ <;>
      simp only [hv, if_true] at h
    · cases h; exact .inr (.inl ⟨hp, rfl, by rw [hv]⟩)
    · obtain ⟨hg, h⟩ := guardRead_next _ _ _ _ h
      cases h; exact .inr (.inr (.inr (.inl ⟨hp, rfl, by simpa [State.groupOff64] using hg, by rw [hv]; rfl⟩)))
    · simp only [exec, execTail64_eq] at h
      obtain ⟨hg, h⟩ := guardRead_next _ _ _ _ h
      cases h; exact .inr (.inr (.inr (.inr (.inr (.inl ⟨hp, rfl, by rw [hv]⟩)))))
    · cases h; exact .inr (.inr (.inr (.inr (.inr (.inr (.inr ⟨hp, rfl, by rw [hv]⟩))))))

/-! ### The host port -/

/-- A refusal looks at the transaction and the phase only (R54, R163). -/
theorem refusalOf_congr (x : Transaction) (s t : State) (h : t.phase = s.phase) : refusalOf x t = refusalOf x s := by
  have hb : t.busy = s.busy := by simp only [State.busy, h]
  simp only [refusalOf, writeRefusal, hb]

theorem hostTransaction_refused (x : Transaction) (s : State) (r : Reason) (h : refusalOf x s = some r) :
    hostTransaction x s = .next (s.refuse (refusedData x.kind) r) := by
  simp [hostTransaction, h]

theorem hostTransaction_read (x : Transaction) (s : State) (h : refusalOf x s = none) (hk : x.kind = .read) :
    hostTransaction x s = .next (s.okayRead (readValue x s)) := by
  simp [hostTransaction, h, hk]

theorem hostTransaction_write (x : Transaction) (s : State) (v : Word) (h : refusalOf x s = none)
    (hk : x.kind = .write v) : hostTransaction x s = legalWrite x v s := by
  simp [hostTransaction, h, hk]

/-- What a transaction can do: it is refused, it reads, it writes the buffer, it writes an operand register, or it is a
command that is executed. -/
theorem hostTransaction_cases (x : Transaction) (s t : State) (h : hostTransaction x s = .next t) :
    (∃ d r, t = s.refuse d r) ∨ (∃ v, t = s.okayRead v) ∨
    (∃ v, x.space = .data ∧ x.kind = .write v ∧ x.off + x.n ≤ bufBytes ∧ s.phase = phaseIdle ∧
      t = (s.dataWrite x.off x.n v).okayWrite) ∨
    (∃ v, x.space = .reg ∧ x.kind = .write v ∧ x.off ≠ 0 ∧ x.n = 4 ∧ s.phase = phaseIdle ∧
      t = (s.regWrite x.off v).okayWrite) ∨
    (∃ v i, x.space = .reg ∧ x.kind = .write v ∧ x.off = 0 ∧ x.n = 4 ∧ s.phase = phaseIdle ∧
      decodeCommand v = .ok i ∧ exec i s = .next t) := by
  unfold hostTransaction at h
  split at h
  · cases h; exact .inl ⟨_, _, rfl⟩
  · next hr =>
    split at h
    · cases h; exact .inr (.inl ⟨_, rfl⟩)
    · next v hk =>
      simp only [refusalOf, hk] at hr
      split at hr
      · cases hr
      · next hsz =>
        split at hr
        · cases hr
        · split at hr
          · cases hr
          · next hend =>
            simp only [writeRefusal] at hr
            split at hr
            · cases hr
            · split at hr
              · cases hr
              · next hb =>
                have hidle : s.phase = phaseIdle := by
                  rw [← State.busy_eq_false_iff]; simpa using hb
                unfold legalWrite at h
                split at h
                · next hsp =>
                  cases h
                  rw [hsp] at hend
                  exact .inr (.inr (.inl ⟨v, hsp, hk, by simpa [spaceEnd] using hend, hidle, rfl⟩))
                · next hsp =>
                  have hn : x.n = 4 := by simpa [hsp, legalSize] using hsz
                  split at h
                  · next h0 =>
                    unfold commandWrite at h
                    split at h
                    · next i hi =>
                      exact .inr (.inr (.inr (.inr ⟨v, i, hsp, hk, h0, hn, hidle, hi, h⟩)))
                    · cases h; exact .inl ⟨_, _, rfl⟩
                  · next h0 =>
                    cases h
                    exact .inr (.inr (.inr (.inl ⟨v, hsp, hk, h0, hn, hidle, rfl⟩)))

/-- What a write of an operand register leaves alone. -/
theorem regWrite_eq (s : State) (off : Nat) (v : Word) :
    (off = 0x08 ∧ s.regWrite off v = { s with seed := v }) ∨ (off = 0x0C ∧ s.regWrite off v = { s with len := v }) ∨
    (off = 0x10 ∧ s.regWrite off v = { s with dsize := v }) ∨
    (off ≠ 0x08 ∧ off ≠ 0x0C ∧ off ≠ 0x10 ∧ s.regWrite off v = s) := by
  unfold State.regWrite
  split
  · exact .inl ⟨rfl, rfl⟩
  · exact .inr (.inl ⟨rfl, rfl⟩)
  · exact .inr (.inr (.inl ⟨rfl, rfl⟩))
  · next h1 h2 h3 => exact .inr (.inr (.inr ⟨h1, h2, h3, rfl⟩))

/-! ### One step -/

/-- What a step that answers a next state was. -/
theorem step_cases (s t : State) (h : step s = .next t) :
    (∃ i, s.turns = [] ∧ decodeSelector s.selector = .ok i ∧ exec i s = .next t) ∨
    (∃ i rest, s.turns = .sequencer :: rest ∧ decodeSelector s.selector = .ok i ∧
      exec i { s with turns := rest } = .next t) ∨
    (∃ e rest, s.turns = .sequencer :: rest ∧ decodeSelector s.selector = .error e ∧ t = { s with turns := rest }) ∨
    (∃ x rest, s.turns = .host x :: rest ∧ hostTransaction x { s with turns := rest } = .next t) ∨
    (∃ rest, s.turns = .reset :: rest ∧ t = ({ s with turns := rest } : State).resetEvent) := by
  unfold step at h
  split at h
  · next h0 =>
    unfold sequencerAlone at h
    split at h
    · next i hi => exact .inl ⟨i, h0, hi, h⟩
    · cases h
  · next u rest h0 =>
    unfold takeTurn at h
    split at h
    · exact .inr (.inr (.inr (.inl ⟨_, rest, h0, h⟩)))
    · unfold sequencerTurn at h
      split at h
      · next i hi => exact .inr (.inl ⟨i, rest, h0, hi, h⟩)
      · next e he => cases h; exact .inr (.inr (.inl ⟨e, rest, h0, he, rfl⟩))
    · cases h; exact .inr (.inr (.inr (.inr ⟨rest, h0, rfl⟩)))

/-- What one step can do to the block. -/
theorem step_effect (s t : State) (h : step s = .next t) :
    (∃ rest, s.turns = .reset :: rest ∧ t = ({ s with turns := rest } : State).resetEvent) ∨
    (∃ u rest rep, s.turns = u :: rest ∧ u ≠ .reset ∧ t = { s with turns := rest, reply := rep }) ∨
    (∃ off n v rest, s.turns = .host { space := .data, kind := .write v, off := off, n := n } :: rest ∧
      s.phase = phaseIdle ∧ off + n ≤ bufBytes ∧
      t = (({ s with turns := rest } : State).dataWrite off n v).okayWrite) ∨
    (∃ off v rest, s.turns = .host { space := .reg, kind := .write v, off := off, n := 4 } :: rest ∧
      s.phase = phaseIdle ∧ (off = 0x08 ∨ off = 0x0C ∨ off = 0x10) ∧
      t = (({ s with turns := rest } : State).regWrite off v).okayWrite) ∨
    (∃ u d rest, s.turns = cmdWrite (commandCode u d) :: rest ∧ s.phase = phaseIdle ∧
      t = ({ s with turns := rest } : State).accept u d) ∨
    (∃ i rest, (s.turns = [] ∧ rest = [] ∨ s.turns = .sequencer :: rest) ∧ decodeSelector s.selector = .ok i ∧
      exec i { s with turns := rest } = .next t) := by
  rcases step_cases s t h with ⟨i, h0, hi, he⟩ | ⟨i, rest, h0, hi, he⟩ | ⟨e, rest, h0, _, rfl⟩ | ⟨x, rest, h0, he⟩ |
    ⟨rest, h0, rfl⟩
  · exact .inr (.inr (.inr (.inr (.inr ⟨i, [], .inl ⟨h0, rfl⟩, hi, by rw [← h0]; exact he⟩))))
  · exact .inr (.inr (.inr (.inr (.inr ⟨i, rest, .inr h0, hi, he⟩))))
  · exact .inr (.inl ⟨_, rest, s.reply, h0, by simp, rfl⟩)
  · obtain ⟨sp, k, off, n⟩ := x
    rcases hostTransaction_cases _ _ _ he with ⟨d, r, rfl⟩ | ⟨v, rfl⟩ | ⟨v, hsp, hk, hb, hp, rfl⟩ |
      ⟨v, hsp, hk, h00, hn, hp, rfl⟩ | ⟨v, i, hsp, hk, h00, hn, hp, hi, he⟩
    · exact .inr (.inl ⟨_, rest, _, h0, by simp, rfl⟩)
    · exact .inr (.inl ⟨_, rest, _, h0, by simp, rfl⟩)
    · simp only at hsp hk; subst hsp hk
      exact .inr (.inr (.inl ⟨off, n, v, rest, h0, hp, hb, rfl⟩))
    · simp only at hsp hk hn; subst hsp hk hn
      rcases regWrite_eq ({ s with turns := rest } : State) off v with ⟨ho, hr⟩ | ⟨ho, hr⟩ | ⟨ho, hr⟩ | ⟨_, _, _, hr⟩
      · exact .inr (.inr (.inr (.inl ⟨off, v, rest, h0, hp, by omega, rfl⟩)))
      · exact .inr (.inr (.inr (.inl ⟨off, v, rest, h0, hp, by omega, rfl⟩)))
      · exact .inr (.inr (.inr (.inl ⟨off, v, rest, h0, hp, by omega, rfl⟩)))
      · exact .inr (.inl ⟨_, rest, _, h0, by simp, by rw [hr]; rfl⟩)
    · simp only at hsp hk h00 hn; subst hsp hk h00 hn
      obtain ⟨u, d, rfl, rfl⟩ := decodeCommand_ok v i hi
      rw [exec_commandInstr, execCommand_idle u d _ hp] at he
      cases he
      exact .inr (.inr (.inr (.inr (.inl ⟨u, d, rest, h0, hp, rfl⟩))))
  · exact .inl ⟨rest, h0, rfl⟩

/-- A step that takes a turn of the environment. -/
theorem step_cons (s : State) (u : Turn) (rest : List Turn) (h : s.turns = u :: rest) :
    step s = takeTurn u { s with turns := rest } := by
  simp [step, h]

theorem run_succ (n : Nat) (s t : State) (h : step s = .next t) : run (n + 1) s = run n t := by
  simp [run, h]

/-- Runs compose. -/
theorem run_add (m n : Nat) : ∀ (s t : State), run m s = .next t → run (m + n) s = run n t := by
  induction m with
  | zero => intro s t h; cases h; simp
  | succ m ih =>
    intro s t h
    rw [Nat.add_right_comm, run]
    rw [run] at h
    split at h
    · next u _ => exact ih u t h
    · cases h
    · cases h

/-- The host interface's run is this one. -/
theorem core_run_eq (n : Nat) : ∀ s : State, Host.Core.run Sys2Proof.core n s = run n s := by
  induction n with
  | zero => intro s; rfl
  | succ n ih =>
    intro s
    refine (Host.Core.run.eq_2 Sys2Proof.core s n).trans ?_
    have hc : Host.Core.step Sys2Proof.core s = step s := rfl
    rw [hc, run]
    cases hs : step s with
    | next t => exact ih t
    | fault f => rfl
    | refused r => rfl

end Sys2Proof.Machine
end

