-- ==== Sys2Proof/Tests/Slice0.lean ====
section
/-! SUPPORT. The model's own tests, each of one step at most, with results from spec/95_test_vectors.md; and for each statement with hypotheses a state and operands that meet them together. -/

namespace Sys2Proof.Tests

open Sys2Proof.Machine

/-! ### Small states -/

/-- Bytes in consecutive cells. -/
def cells : Nat → List Byte → Memory
  | _, [] => []
  | a, b :: bs => (a, b) :: cells (a + 1) bs

/-- `abcdefgh`. -/
def letters : List Byte := [0x61#8, 0x62#8, 0x63#8, 0x64#8, 0x65#8, 0x66#8, 0x67#8, 0x68#8]

/-- An idle block that holds some bytes, with `LEN` and `DSIZE` their number. -/
def holding (bs : List Byte) : State :=
  { State.reset with data := cells 0 bs, len := BitVec.ofNat 32 bs.length, dsize := BitVec.ofNat 32 bs.length }

/-- The same block in a phase of a unit's hash. -/
def running (bs : List Byte) (var : Bool) (phase : BitVec 3) : State :=
  { holding bs with var := var, phase := phase }

/-- A block with the given turns to come. -/
def offered (s : State) (us : List Turn) : State := { s with turns := us }

/-- The next state, if there is one. -/
def out : Host.Outcome State Fault Refusal → Option State
  | .next t => some t
  | _ => none

/-- A host transaction as a turn. -/
def tr (sp : Space) (k : Kind) (off n : Nat) : Turn := .host { space := sp, kind := k, off := off, n := n }

/-! ### Well-formedness: the ill-formed term of each check is refused. No instruction has a field to check (R81). -/

theorem test_wf_all_instructions : ∀ i ∈ [Instr.hash32, .hash64, .hash32d, .hash64d, .init32, .block32, .tail32,
    .final32, .init64, .block64, .tail64, .final64], i.wf = true := by decide
theorem test_wf_byte_write : Transaction.wf { space := .data, kind := .write 0xff#32, off := 0, n := 1 } = true := by decide
theorem test_wf_wide_value_in_byte_write :
    Transaction.wf { space := .data, kind := .write 0x100#32, off := 0, n := 1 } = false := by decide
theorem test_wf_turn : Turn.wf (tr .data (.write 0x10000#32) 0 2) = false := by decide

/-! ### Decoding: words written out from the rows of R82 and R84 -/

theorem test_decode_hash32 : decode (.cmdw 0b00000000000000000000000000000001#32) = .ok .hash32 := rfl
theorem test_decode_hash64 : decode (.cmdw 0b00000000000000000000000000000010#32) = .ok .hash64 := rfl
theorem test_decode_hash32d : decode (.cmdw 0b00000000000000000000000000000101#32) = .ok .hash32d := rfl
theorem test_decode_hash64d : decode (.cmdw 0b00000000000000000000000000000110#32) = .ok .hash64d := rfl
theorem test_decode_init32 : decode (.ustep 0b0001#4) = .ok .init32 := rfl
theorem test_decode_block32 : decode (.ustep 0b0010#4) = .ok .block32 := rfl
theorem test_decode_tail32 : decode (.ustep 0b0011#4) = .ok .tail32 := rfl
theorem test_decode_final32 : decode (.ustep 0b0100#4) = .ok .final32 := rfl
theorem test_decode_init64 : decode (.ustep 0b1001#4) = .ok .init64 := rfl
theorem test_decode_block64 : decode (.ustep 0b1010#4) = .ok .block64 := rfl
theorem test_decode_tail64 : decode (.ustep 0b1011#4) = .ok .tail64 := rfl
theorem test_decode_final64 : decode (.ustep 0b1100#4) = .ok .final64 := rfl
theorem test_decode_reserved : decode (.cmdw 0x00010001#32) = .error .reservedCommand := rfl

/-! ### Each table word runs as the first instruction after reset -/

theorem test_first_step_of_each_row : ∀ r ∈ [(32, 1), (32, 2), (32, 5), (32, 6), (8, 1), (8, 2), (8, 3), (8, 4), (8, 9),
    (8, 10), (8, 11), (8, 12)], (out (step (State.reset.withFetchWord r.1 r.2))).isSome = true := by decide

/-! ### Commands -/

/-- P1 line 9. -/
theorem test_hash32_accepted : (out (step (offered (holding [0x61#8, 0x62#8, 0x63#8]) [cmdWrite 0x00000001#32]))).map
    (fun t => (t.phase, t.var, t.err, t.status)) = some (phaseInit, false, false, 0x00000001#32) := by decide
/-- P3 line 5: `LEN = DSIZE + 1`. -/
theorem test_hash32_bounds : (out (exec .hash32 { holding [0x61#8, 0x62#8, 0x63#8] with len := 4#32 })).map
    (fun t => (t.phase, t.status, t.result)) = some (phaseIdle, 0x00000004#32, 0#64) := by decide
/-- P3 line 10. -/
theorem test_hash32d_loads_its_seed : (out (exec .hash32d (holding [0x61#8, 0x62#8, 0x63#8]))).map
    (fun t => (t.phase, t.seed)) = some (phaseInit, 0x9747b28c#32) := by decide
/-- P2 line 7, `STATUS` as at its line 9. -/
theorem test_hash64_accepted : (out (exec .hash64 { holding letters with done := true, result := 0x13577c9b#64 })).map
    (fun t => (t.phase, t.status, t.result)) = some (phaseInit, 0x00000009#32, 0#64) := by decide
/-- P4 line 15: refused while a hash runs. -/
theorem test_hash64_busy : (out (exec .hash64 (running letters false phaseBlock))).map (fun t => (t.phase, t.var, t.reply)) =
    some (phaseBlock, false, some { resp := .error, rdata := none, reason := some .busy }) := by decide
/-- P5 line 5. -/
theorem test_hash64d_of_the_empty_input : (out (exec .hash64d State.reset)).map (fun t => (t.phase, t.var, t.seed)) =
    some (phaseInit, true, 0xe17a1465#32) := by decide

/-! ### Micro-operations of U32 -/

/-- V32-4. -/
theorem test_init32_without_group : (out (exec .init32 (running [0x61#8, 0x62#8, 0x63#8] false phaseInit))).map
    (fun t => (t.h32, t.phase)) = some (0x00000003#32, phaseTail) := by decide
/-- V32-32. -/
theorem test_init32_with_group : (out (exec .init32 { State.reset with seed := 0xdeadbeef#32, len := 7#32 })).map
    (fun t => (t.h32, t.phase, t.cnt)) = some (0xdeadbee8#32, phaseBlock, 0#32) := by decide
/-- V32-9, first group. -/
theorem test_block32_first : (out (exec .block32 { running letters false phaseBlock with h32 := 8#32 })).map
    (fun t => (t.h32, t.cnt, t.phase)) = some (0x327af5df#32, 1#32, phaseBlock) := by decide
/-- V32-9, second group. -/
theorem test_block32_last :
    (out (exec .block32 { running letters false phaseBlock with h32 := 0x327af5df#32, cnt := 1#32 })).map
    (fun t => (t.h32, t.cnt, t.phase)) = some (0x343a5785#32, 2#32, phaseTail) := by decide
/-- V32-8. -/
theorem test_tail32_three_bytes :
    (out (exec .tail32 { running letters false phaseTail with len := 7#32, h32 := 0x6e48da64#32 })).map
    (fun t => (t.h32, t.phase)) = some (0x6bb65595#32, phaseFinal) := by decide
/-- V32-5: no tail byte, no multiply. -/
theorem test_tail32_none : (out (exec .tail32 { running letters false phaseTail with len := 4#32, h32 := 0x83b21f23#32 })).map
    (fun t => (t.h32, t.phase)) = some (0x83b21f23#32, phaseFinal) := by decide
/-- V32-4. -/
theorem test_final32 : (out (exec .final32 { running letters false phaseFinal with h32 := 0xd665750a#32 })).map
    (fun t => (t.h32, t.result, t.status)) = some (0x13577c9b#32, 0x0000000013577c9b#64, 0x00000002#32) := by decide

/-! ### Micro-operations of U64 -/

/-- V64-9. -/
theorem test_init64 : (out (exec .init64 (running letters true phaseInit))).map (fun t => (t.h64, t.phase)) =
    some (0x35253c9ade8f4ca8#64, phaseBlock) := by decide
/-- V64-28: the seed is zero-extended. -/
theorem test_init64_seed : (out (exec .init64 { State.reset with seed := 0xe17a1465#32, len := 15#32 })).map
    (fun t => t.h64) = some 0xa3a5d1a28036bbde#64 := by decide
/-- V64-9. -/
theorem test_block64 : (out (exec .block64 { running letters true phaseBlock with h64 := 0x35253c9ade8f4ca8#64 })).map
    (fun t => (t.h64, t.cnt, t.phase)) = some (0x553c6f8d63c02a8e#64, 1#32, phaseTail) := by decide
/-- V64-8. -/
theorem test_tail64_seven_bytes :
    (out (exec .tail64 { running letters true phaseTail with len := 7#32, h64 := 0x6e80950782bd6313#64 })).map
    (fun t => (t.h64, t.phase)) = some (0x02c944e92299995a#64, phaseFinal) := by decide
/-- V64-2. -/
theorem test_tail64_one_byte :
    (out (exec .tail64 { running letters true phaseTail with len := 1#32, h64 := 0xc6a4a7935bd1e995#64 })).map
    (fun t => t.h64) = some 0xecc3befc3b503f04#64 := by decide
/-- V64-9. -/
theorem test_final64 : (out (exec .final64 { running letters true phaseFinal with h64 := 0x553c6f8d63c02a8e#64 })).map
    (fun t => (t.h64, t.result, t.status)) =
    some (0xafdb0257ff41aa98#64, 0xafdb0257ff41aa98#64, 0x0000000A#32) := by decide

/-! ### The host port -/

/-- VP-17. -/
theorem test_data_read_word : (out (step (offered (holding letters) [tr .data .read 0 4]))).map (fun t => t.reply) =
    some (some { resp := .okay, rdata := some 0x64636261#32, reason := none }) := by decide
/-- P4 line 10. -/
theorem test_status_is_read_only : (out (step (offered (holding letters) [tr .reg (.write 0#32) 0x04 4]))).map
    (fun t => t.reply) = some (some { resp := .error, rdata := none, reason := some .readOnly }) := by decide
/-- P2 line 2. -/
theorem test_word_write : (out (step (offered State.reset [tr .data (.write 0x68676665#32) 4 4]))).map (fun t => t.data) =
    some [(4, 0x65#8), (5, 0x66#8), (6, 0x67#8), (7, 0x68#8)] := by decide

/-! ### Witnesses: for each statement with hypotheses, a state and operands that meet them together -/

/-- The turn is reset, in the middle of a hash. -/
theorem witness_ResetEventAbandonsEverything :
    (offered (running letters true phaseTail) [.reset, .sequencer]).turns = .reset :: [.sequencer] := rfl

theorem witness_FourCommandWordsAndNoOther : ∀ w ∈ [0x00000000#32, 0x00000003#32, 0x00000004#32, 0x00000007#32,
    0x80000001#32], w ≠ 0x00000001#32 ∧ w ≠ 0x00000002#32 ∧ w ≠ 0x00000005#32 ∧ w ≠ 0x00000006#32 := by simp

/-- In the idle block and in a busy one. -/
theorem witness_ReservedCommandWordIsRefused :
    (offered State.reset [cmdWrite 0x00000003#32]).turns =
      .host { space := .reg, kind := .write 0x00000003#32, off := 0x00, n := 4 } :: [] ∧
    (offered (running letters false phaseInit) [cmdWrite 0x00000003#32]).turns =
      .host { space := .reg, kind := .write 0x00000003#32, off := 0x00, n := 4 } :: [] ∧
    (0x00000003#32 : Word) ≠ 0x00000001#32 ∧ (0x00000003#32 : Word) ≠ 0x00000002#32 ∧
    (0x00000003#32 : Word) ≠ 0x00000005#32 ∧ (0x00000003#32 : Word) ≠ 0x00000006#32 := by decide

/-- Both units, each phase from IDLE to FINAL, the host silent or the turn the sequencer's. -/
theorem witness_VarAndPhaseSelectTheStep : ∀ v ∈ [false, true], ∀ p ∈ [0#3, 1#3, 2#3, 3#3, 4#3],
    (running [] v p).turns = [] ∧ (running [] v p).var = v ∧ (running [] v p).phase = p ∧
    (offered (running [] v p) [.sequencer]).turns = .sequencer :: [] := by decide

/-- Codes 5 and 7, with each kind of turn, and a write that nothing but the phase forbids. -/
theorem witness_UnreachablePhasesAreStuck :
    (∀ p ∈ [5#3, 7#3], 5 ≤ (running [] false p).phase.toNat ∧ (running [] false p).turns = []) ∧
    (offered (running [] true 6#3) [.sequencer]).turns = .sequencer :: [] ∧
    (offered (running [] true 6#3) [.reset]).turns = .reset :: [] ∧
    (offered (running [] true 6#3) [tr .reg (.write 1#32) 0x08 4]).turns = tr .reg (.write 1#32) 0x08 4 :: [] ∧
    LegalTransaction { space := .reg, kind := .write 1#32, off := 0x08, n := 4 }
      { running [] true 6#3 with phase := phaseIdle } ∧
    (∃ t, step (offered (running [] true 6#3) [.sequencer]) = .next t) ∧
    ∃ t, run 1 (offered State.reset [.sequencer]) = .next t :=
  ⟨by decide, rfl, rfl, rfl,
    ⟨fun _ => rfl, fun h => (by cases h), rfl, fun _ => by decide, fun h => (by cases h),
      fun _ _ => ⟨fun _ => by decide, rfl, fun _ h => (by cases h)⟩⟩, ⟨_, rfl⟩, ⟨_, rfl⟩⟩

theorem witness_IdleBlockWaitsForTheHost : State.reset.phase = phaseIdle ∧ State.reset.turns = [] ∧
    (offered State.reset [.sequencer]).turns = .sequencer :: [] := by decide

theorem witness_StepRunsTheDecodedInstruction :
    decode (.ustep (running letters true phaseBlock).selector) = .ok .block64 ∧ (running letters true phaseBlock).turns = [] ∧
    (offered (running letters true phaseBlock) [.sequencer]).turns = .sequencer :: [] ∧
    decode (.cmdw 0x00000006#32) = .ok .hash64d ∧ State.reset.phase = phaseIdle ∧
    (offered State.reset [cmdWrite 0x00000006#32]).turns =
      .host { space := .reg, kind := .write 0x00000006#32, off := 0x00, n := 4 } :: [] := ⟨rfl, rfl, rfl, rfl, rfl, rfl⟩

theorem witness_PlacedTableWordRunsNext : decodeTableWord 32 0x00000005 = some .hash32d ∧
    decodeTableWord 8 0xC = some .final64 ∧ decodeTableWord 4 0x1 = some .init32 := by decide

/-- A legal read, a legal write, and a read that is not legal. -/
theorem witness_LegalIsOkayAndIllegalChangesNothing :
    (offered State.reset [tr .reg .read 0x1C 4]).turns =
      .host { space := .reg, kind := .read, off := 0x1C, n := 4 } :: [] ∧
    LegalTransaction { space := .reg, kind := .read, off := 0x1C, n := 4 } State.reset ∧
    LegalTransaction { space := .reg, kind := .write 2#32, off := 0x00, n := 4 } State.reset ∧
    ¬ LegalTransaction { space := .reg, kind := .read, off := 0x20, n := 4 } State.reset :=
  ⟨rfl,
    ⟨fun _ => rfl, fun h => (by cases h), rfl, fun _ => by decide, fun h => (by cases h), fun _ h => (by cases h)⟩,
    ⟨fun _ => rfl, fun h => (by cases h), rfl, fun _ => by decide, fun h => (by cases h),
      fun v h => ⟨fun _ => .inl rfl, rfl, fun _ _ => by cases h; decide⟩⟩,
    fun h => absurd (h.2.2.2.1 rfl) (by decide)⟩

/-- One transaction for each reason, and the last legal one before each. -/
theorem witness_RefusalIsFirstApplicableReason :
    refusalOf { space := .data, kind := .read, off := 0, n := 3 } State.reset = some .badSize ∧
    refusalOf { space := .data, kind := .read, off := 1, n := 2 } State.reset = some .misaligned ∧
    refusalOf { space := .reg, kind := .read, off := 0x20, n := 4 } State.reset = some .unmapped ∧
    refusalOf { space := .reg, kind := .write 0#32, off := 0x1C, n := 4 } State.reset = some .readOnly ∧
    refusalOf { space := .reg, kind := .write 0#32, off := 0x00, n := 4 } (running [] false phaseInit) = some .busy ∧
    refusalOf { space := .reg, kind := .write 0#32, off := 0x00, n := 4 } State.reset = some .illegalCmd ∧
    refusalOf { space := .reg, kind := .read, off := 0x1C, n := 4 } State.reset = none ∧
    (offered State.reset [tr .data .read 0 3]).turns = .host { space := .data, kind := .read, off := 0, n := 3 } :: [] := by
  decide

/-- Each register's offset, with the value read after reset; `CAP` fits its 32 bits. -/
theorem witness_RegisterReadsReturnTheirValue :
    (∀ off ∈ [0x00, 0x04, 0x08, 0x0C, 0x10, 0x14, 0x18, 0x1C], (offered State.reset [tr .reg .read off 4]).turns =
      .host { space := .reg, kind := .read, off := off, n := 4 } :: []) ∧
    State.reset.status = 0#32 ∧ (BitVec.ofNat 32 bufBytes).toNat = bufBytes := by
  refine ⟨by decide, by decide, ?_⟩
  rw [BitVec.toNat_ofNat]
  exact Nat.mod_eq_of_lt (by have := bufBytes_le; omega)

theorem witness_StatusBitsAreTheFlags : 4 ≤ 31 ∧ 4 ≤ 4 := by decide

/-- A cell nothing has written. -/
theorem witness_ResetStateIsZeroIdleAndDataFree : ∀ c ∈ (holding [0x61#8]).data, c.1 ≠ 1 := by decide

/-- Each size, at the first and the last place of the buffer. -/
theorem witness_DataReadsAreLittleEndianSums :
    (offered (holding letters) [tr .data .read 4 4]).turns = .host { space := .data, kind := .read, off := 4, n := 4 } :: [] ∧
    (∀ n, n = 1 ∨ n = 2 ∨ n = 4 → 0 % n = 0 ∧ 0 + n ≤ bufBytes ∧ (bufBytes - n) % n = 0 ∧ bufBytes - n + n ≤ bufBytes) := by
  refine ⟨rfl, ?_⟩
  have := bufBytes_ge
  have := bufBytes_mod
  rintro n (rfl | rfl | rfl) <;> omega

theorem witness_RegisterWritesChangeOneRegister : (running letters true phaseFinal).phase ≠ phaseIdle ∧
    (offered (running letters true phaseFinal) [tr .reg (.write 6#32) 0x10 4]).turns =
      .host { space := .reg, kind := .write 6#32, off := 0x10, n := 4 } :: [] ∧
    ∀ off ∈ [0x00, 0x08, 0x0C, 0x10], (offered State.reset [tr .reg (.write 6#32) off 4]).phase = phaseIdle ∧
      (offered State.reset [tr .reg (.write 6#32) off 4]).turns =
        .host { space := .reg, kind := .write 6#32, off := off, n := 4 } :: [] ∧ 6#32 = commandCode .u64 true := by decide

theorem witness_DataWritesStoreTheirBytesOnly : (running letters true phaseFinal).phase ≠ phaseIdle ∧
    (offered (running letters true phaseFinal) [tr .data (.write 0x6261#32) 6 2]).turns =
      .host { space := .data, kind := .write 0x6261#32, off := 6, n := 2 } :: [] ∧
    State.reset.phase = phaseIdle ∧ (offered State.reset [tr .data (.write 0x6261#32) 6 2]).turns =
      .host { space := .data, kind := .write 0x6261#32, off := 6, n := 2 } :: [] ∧
    6 % 2 = 0 ∧ 6 + 2 ≤ bufBytes ∧ (bufBytes - 4) % 4 = 0 ∧ bufBytes - 4 + 4 ≤ bufBytes := by
  have := bufBytes_ge
  have := bufBytes_mod
  refine ⟨by decide, rfl, rfl, rfl, ?_⟩
  omega

theorem witness_MixedWidthAccessesSeeTheSameBytes :
    State.reset.phase = phaseIdle ∧ 4 % 4 = 0 ∧ 4 + 4 ≤ bufBytes ∧
    (offered State.reset [stmtTurn (.ww 4 7#32), stmtTurn (.rw 4)]).turns = stmtTurn (.ww 4 7#32) :: stmtTurn (.rw 4) :: [] ∧
    (offered State.reset [stmtTurn (.ww 4 7#32), stmtTurn (.rb (4 + 3))]).turns =
      stmtTurn (.ww 4 7#32) :: stmtTurn (.rb (4 + 3)) :: [] ∧
    (offered State.reset ((stmtLoad 4 [7#8, 0#8, 0#8, 0#8]).map stmtTurn ++ [stmtTurn (.rw 4)])).turns =
      (stmtLoad 4 [(7#32 : Word).extractLsb' 0 8, (7#32 : Word).extractLsb' 8 8, (7#32 : Word).extractLsb' 16 8,
        (7#32 : Word).extractLsb' 24 8]).map stmtTurn ++ stmtTurn (.rw 4) :: [] := by decide

theorem witness_WritesWhileBusyAreRefused :
    (running letters false phaseBlock).phase ≠ phaseIdle ∧
    (offered (running letters false phaseBlock) [tr .reg (.write 1#32) 0x08 4]).turns =
      .host { space := .reg, kind := .write 1#32, off := 0x08, n := 4 } :: [] ∧
    LegalTransaction { space := .reg, kind := .write 1#32, off := 0x08, n := 4 }
      { running letters false phaseBlock with phase := phaseIdle } :=
  ⟨by decide, rfl, ⟨fun _ => rfl, fun h => (by cases h), rfl, fun _ => by decide, fun h => (by cases h),
    fun _ _ => ⟨fun _ => by decide, rfl, fun _ h => (by cases h)⟩⟩⟩

theorem witness_ReadsHaveNoSideEffect : (offered (running letters true phaseTail) [tr .data .read 1 4]).turns =
    .host { space := .data, kind := .read, off := 1, n := 4 } :: [] := rfl

/-- Two running blocks that differ in every hidden register. -/
theorem witness_HiddenRegistersCannotBeRead :
    let s₁ := offered { running letters true phaseInit with h32 := 1#32 } [tr .reg .read 0x04 4]
    let s₂ := offered { running letters true phaseFinal with h64 := 2#64, cnt := 3#32 } [tr .reg .read 0x04 4]
    s₁.turns = tr .reg .read 0x04 4 :: [] ∧ s₂.turns = tr .reg .read 0x04 4 :: [] ∧ s₁.seed = s₂.seed ∧ s₁.len = s₂.len ∧
    s₁.dsize = s₂.dsize ∧ s₁.result = s₂.result ∧ s₁.done = s₂.done ∧ s₁.err = s₂.err ∧ s₁.var = s₂.var ∧
    (s₁.phase = phaseIdle ↔ s₂.phase = phaseIdle) ∧ (∀ a, s₁.dataByte a = s₂.dataByte a) ∧
    (∃ t, step s₁ = .next t) ∧ ∃ t, step s₂ = .next t :=
  ⟨rfl, rfl, rfl, rfl, rfl, rfl, rfl, rfl, rfl, by decide, fun _ => rfl, ⟨_, rfl⟩, ⟨_, rfl⟩⟩

/-- `LEN = AVAIL`, and `LEN = AVAIL + 1`. -/
theorem witness_CommandAcceptanceWritesExactlyThese :
    (offered (holding letters) [cmdWrite (commandCode .u64 false)]).turns = cmdWrite (commandCode .u64 false) :: [] ∧
    (holding letters).phase = phaseIdle ∧ (holding letters).len.toNat = min (holding letters).dsize.toNat bufBytes ∧
    ({ holding letters with len := 9#32 } : State).phase = phaseIdle ∧
    ({ holding letters with len := 9#32 } : State).len.toNat =
      min ({ holding letters with len := 9#32 } : State).dsize.toNat bufBytes + 1 := by
  refine ⟨rfl, rfl, ?_, rfl, ?_⟩
  · exact (Nat.min_eq_left bufBytes_ge).symm
  · exact congrArg (· + 1) (Nat.min_eq_left bufBytes_ge).symm

theorem witness_BoundsErrorLeavesThisState :
    let s := offered { State.reset with len := 1#32 } [cmdWrite (commandCode .u64 true)]
    s.phase = phaseIdle ∧ min s.dsize.toNat bufBytes < s.len.toNat ∧ s.turns = cmdWrite (commandCode .u64 true) :: [] := by
  decide

theorem witness_CommandWhileBusyIsRefused : ∀ p ∈ [1#3, 4#3, 7#3], (running letters false p).phase ≠ phaseIdle := by decide

theorem witness_DefaultSeedCommandIsSeedWriteThenCommand : (holding letters).phase = phaseIdle := rfl

theorem witness_ErrStaysUntilNextAcceptance :
    let s := offered { State.reset with err := true, len := 1#32 } [tr .reg (.write 0#32) 0x0C 4]
    let s' := offered { State.reset with len := 1#32 } [cmdWrite (commandCode .u32 false), cmdWrite (commandCode .u64 true)]
    s.err = true ∧ s.phase = phaseIdle ∧ (∃ t, step s = .next t) ∧ (∀ rest, s.turns ≠ .reset :: rest) ∧
    (∀ u d rest, s.turns ≠ .host { space := .reg, kind := .write (commandCode u d), off := 0x00, n := 4 } :: rest) ∧
    s'.phase = phaseIdle ∧ min s'.dsize.toNat bufBytes < s'.len.toNat ∧
    s'.turns = cmdWrite (commandCode .u32 false) :: cmdWrite (commandCode .u64 true) :: [] :=
  ⟨rfl, rfl, ⟨_, rfl⟩, fun _ h => (by cases h), fun u d _ h => (by cases u <;> cases d <;> cases h), rfl, by decide, rfl⟩

/-- The first group and the last of the buffer. -/
theorem witness_BlockThirtyTwoMultipliesThenXors : 4 * State.reset.cnt.toNat + 4 ≤ bufBytes ∧
    4 * ({ State.reset with cnt := BitVec.ofNat 32 (bufBytes / 4 - 1) } : State).cnt.toNat + 4 = bufBytes := by
  have := bufBytes_ge
  have := bufBytes_mod
  have := bufBytes_le
  refine ⟨by decide, ?_⟩
  show 4 * (BitVec.ofNat 32 (bufBytes / 4 - 1)).toNat + 4 = bufBytes
  rw [BitVec.toNat_ofNat, Nat.mod_eq_of_lt (by omega)]
  omega

/-- No tail with `LEN` above the buffer, and a tail of each length within it. -/
theorem witness_TailThirtyTwoMixesRemainingBytes : ({ State.reset with len := 0xfffffffc#32 } : State).len.toNat % 4 = 0 ∧
    ∀ l ∈ [1#32, 2#32, 3#32, 4#32, 7#32], ({ State.reset with len := l } : State).len.toNat ≤ bufBytes := by
  have := bufBytes_ge
  refine ⟨rfl, fun l hl => ?_⟩
  simp only [List.mem_cons, List.not_mem_nil, or_false] at hl
  rcases hl with rfl | rfl | rfl | rfl | rfl <;> simp only [BitVec.toNat_ofNat] <;> omega

theorem witness_BlockSixtyFourXorsThenMultiplies : 8 * State.reset.cnt.toNat + 8 ≤ bufBytes ∧
    8 * ({ State.reset with cnt := BitVec.ofNat 32 (bufBytes / 8 - 1) } : State).cnt.toNat + 8 = bufBytes := by
  have := bufBytes_ge
  have := bufBytes_mod
  have := bufBytes_le
  refine ⟨by decide, ?_⟩
  show 8 * (BitVec.ofNat 32 (bufBytes / 8 - 1)).toNat + 8 = bufBytes
  rw [BitVec.toNat_ofNat, Nat.mod_eq_of_lt (by omega)]
  omega

theorem witness_TailSixtyFourMixesRemainingBytes : ({ State.reset with len := 0xfffffff8#32 } : State).len.toNat % 8 = 0 ∧
    ∀ l ∈ [1#32, 2#32, 4#32, 7#32], ({ State.reset with len := l } : State).len.toNat ≤ bufBytes := by
  have := bufBytes_ge
  refine ⟨rfl, fun l hl => ?_⟩
  simp only [List.mem_cons, List.not_mem_nil, or_false] at hl
  rcases hl with rfl | rfl | rfl | rfl <;> simp only [BitVec.toNat_ofNat] <;> omega

/-- The first group and the first tail past the buffer: `CNT` and `LEN` can name cells above every legal capacity. -/
theorem witness_ReadsOutsideTheBufferStop :
    bufBytes < 4 * ({ State.reset with cnt := 0x3fffffff#32 } : State).cnt.toNat + 4 ∧
    bufBytes < 8 * ({ State.reset with cnt := 0x1fffffff#32 } : State).cnt.toNat + 8 ∧
    (0xfffffff9#32 : Word).toNat % 4 ≠ 0 ∧ (0xfffffff9#32 : Word).toNat % 8 ≠ 0 ∧
    bufBytes < ({ State.reset with len := 0xfffffff9#32 } : State).len.toNat := by
  have := bufBytes_le
  simp only [BitVec.toNat_ofNat]
  omega

/-- Every instruction answers a next state in some state. -/
theorem witness_InstructionsLeaveTheRestUnchanged : ∀ i ∈ [Instr.hash32, .hash64, .hash32d, .hash64d, .init32, .block32,
    .tail32, .final32, .init64, .block64, .tail64, .final64], (out (exec i (holding letters))).isSome = true := by decide

/-! A running hash that meets both invariants: `LEN = 0`, just accepted. -/

/-- The empty hash of U32 in INIT. -/
def emptyRunning : State := offered { State.reset with phase := phaseInit } [.sequencer]

theorem emptyRunning_inv : emptyRunning.Inv ∧ emptyRunning.HashInv := by
  constructor
  · refine ⟨rfl, fun _ h => (by cases h), by decide, fun _ => ⟨rfl, rfl⟩, fun h => (by cases h), fun _ => rfl,
      fun h => (by cases h), fun h => (by cases h), fun _ => by decide, fun h => (by cases h), fun h => (by cases h),
      fun h => ?_, fun h => ?_⟩
    · rcases h with h | h <;> cases h
    · rcases h with h | h <;> cases h
  · refine ⟨fun _ h => ?_, fun h => (by cases h), fun _ h => (by cases h), fun h => (by cases h)⟩
    rcases h with h | h <;> cases h

theorem witness_EveryStepKeepsTheInvariant : emptyRunning.Inv ∧ ∃ t, step emptyRunning = .next t :=
  ⟨emptyRunning_inv.1, ⟨_, rfl⟩⟩

theorem witness_EveryStepKeepsThePartialHash : emptyRunning.Inv ∧ emptyRunning.HashInv ∧ ∃ t, step emptyRunning = .next t :=
  ⟨emptyRunning_inv.1, emptyRunning_inv.2, ⟨_, rfl⟩⟩

theorem witness_AtMostOneFlagIsSet : (∃ t, run 1 ({ State.reset with turns := [.sequencer] } : State) = .next t) ∧
    State.reset.phase = phaseIdle ∧ emptyRunning.phase.toNat ≤ 4 ∧ emptyRunning.oneFlag ∧
    (∃ t, step emptyRunning = .next t) ∧ ∀ rest, emptyRunning.turns ≠ .reset :: rest :=
  ⟨⟨_, rfl⟩, rfl, by decide, .inl ⟨rfl, rfl, rfl⟩, ⟨_, rfl⟩, fun _ h => (by cases h)⟩

theorem witness_SequencerNeverReadsOutsideTheBuffer : emptyRunning.Inv := emptyRunning_inv.1

theorem witness_RunningSequencerAlwaysHasItsStep :
    emptyRunning.Inv ∧ emptyRunning.phase ≠ phaseIdle ∧ emptyRunning.turns = .sequencer :: [] :=
  ⟨emptyRunning_inv.1, by decide, rfl⟩

/-- Every clause, at the boundary of each choice: reset, a command in and out of bounds, INIT with and without a group,
BLOCK with another group and without, TAIL, FINAL, the idle sequencer, an unreachable phase, and a refused write while a
hash runs. -/
theorem witness_PhaseFollowsTheFixedGraph :
    let moved (s : State) (us : List Turn) := (out (step (offered s us))).map (fun t => t.phase)
    let start := cmdWrite (commandCode .u32 false)
    let one := [0x61#8, 0x62#8, 0x63#8, 0x64#8]
    moved (running letters true phaseBlock) [.reset] = some phaseIdle ∧
    moved (holding letters) [start] = some phaseInit ∧
    moved { holding letters with len := 9#32 } [start] = some phaseIdle ∧
    moved (running one false phaseInit) [] = some phaseBlock ∧
    moved (running one true phaseInit) [.sequencer] = some phaseTail ∧
    moved (running letters false phaseBlock) [] = some phaseBlock ∧
    moved { running letters false phaseBlock with cnt := 1#32 } [.sequencer] = some phaseTail ∧
    moved (running letters true phaseBlock) [] = some phaseTail ∧
    moved (running letters true phaseTail) [] = some phaseFinal ∧
    moved (running letters false phaseFinal) [.sequencer] = some phaseIdle ∧
    moved (holding letters) [.sequencer] = some phaseIdle ∧
    moved (running letters false 5#3) [.sequencer] = some 5#3 ∧
    moved (running letters false phaseBlock) [start] = some phaseBlock := by decide

theorem witness_DataChangesOnlyByHostWriteOrReset :
    let s := offered (holding letters) [tr .data (.write 0x7a#32) 0 1]
    (out (step s)).map (fun t => t.dataByte 0) = some 0x7a#8 ∧ s.dataByte 0 = 0x61#8 := by decide

theorem witness_OperandsAreWrittenOnlyByTheHost :
    (out (step (offered State.reset [tr .reg (.write 1#32) 0x0C 4]))).map (fun t => t.len) = some 1#32 ∧
    (out (step (offered State.reset [tr .reg (.write 1#32) 0x10 4]))).map (fun t => t.dsize) = some 1#32 ∧
    (out (step (offered State.reset [tr .reg (.write 1#32) 0x08 4]))).map (fun t => t.seed) = some 1#32 ∧
    ∀ rest, (offered State.reset [tr .reg (.write 1#32) 0x08 4]).turns ≠ .reset :: rest :=
  ⟨by decide, by decide, by decide, fun _ h => (by cases h)⟩

theorem witness_ResultIsWrittenInThreeWays :
    let s := offered { running letters false phaseFinal with h32 := 0xd665750a#32 } [.sequencer]
    (out (step s)).map (fun t => t.result) = some 0x13577c9b#64 ∧ s.result = 0#64 ∧ ∀ rest, s.turns ≠ .reset :: rest :=
  ⟨by decide, rfl, fun _ h => (by cases h)⟩

theorem witness_ResultIsStableAfterDone :
    let s := offered { holding letters with done := true, result := 0x13577c9b#64 } [tr .data (.write 0#32) 0 4]
    s.done = true ∧ s.phase = phaseIdle ∧ (out (step s)).isSome = true ∧ (∀ rest, s.turns ≠ .reset :: rest) ∧
    ∀ u d rest, s.turns ≠ cmdWrite (commandCode u d) :: rest :=
  ⟨rfl, rfl, by decide, fun _ h => (by cases h), fun _ _ _ h => (by cases h)⟩

/-- The turns of a hash of `n` steps, a read of `STATUS` among them. -/
def polled (n : Nat) : List Turn := .sequencer :: tr .reg .read 0x04 4 :: List.replicate n .sequencer

theorem witness_HashThirtyTwoEndToEnd :
    let s := offered (holding letters) (cmdWrite (commandCode .u32 true) :: (polled 4 ++ [.reset]))
    s.phase = phaseIdle ∧ s.len.toNat ≤ min s.dsize.toNat bufBytes ∧
    s.turns = cmdWrite (commandCode .u32 true) :: (polled 4 ++ [.reset]) ∧ (∀ u ∈ polled 4, Turn.quiet u = true) ∧
    seqTurns (polled 4) = s.len.toNat / 4 + 3 := by decide

theorem witness_HashSixtyFourEndToEnd :
    let s := offered (holding letters) (cmdWrite (commandCode .u64 false) :: (polled 3 ++ []))
    s.phase = phaseIdle ∧ s.len.toNat ≤ min s.dsize.toNat bufBytes ∧
    s.turns = cmdWrite (commandCode .u64 false) :: (polled 3 ++ []) ∧ (∀ u ∈ polled 3, Turn.quiet u = true) ∧
    seqTurns (polled 3) = s.len.toNat / 8 + 3 := by decide

/-- No step at all, and one step short. -/
theorem witness_ResultIsZeroUntilTheLastStep :
    let s := offered (holding letters) (cmdWrite (commandCode .u32 false) :: (polled 3 ++ []))
    s.phase = phaseIdle ∧ s.len.toNat ≤ min s.dsize.toNat bufBytes ∧
    s.turns = cmdWrite (commandCode .u32 false) :: (polled 3 ++ []) ∧ (∀ u ∈ polled 3, Turn.quiet u = true) ∧
    seqTurns (polled 3) + 1 = groupCount .u32 s.len + 3 ∧ seqTurns [] < groupCount .u32 s.len + 3 := by decide

/-- Within bounds, two blocks that differ in a byte above `LEN` and in `DSIZE`; and two that are out of bounds. -/
theorem witness_OutcomeDependsOnTheOperandsOnly :
    let us := polled 2
    let s₁ := offered (holding [0x61#8, 0x62#8, 0x63#8]) (cmdWrite (commandCode .u32 false) :: (us ++ []))
    let s₂ := offered { holding letters with len := 3#32, h32 := 1#32 } (cmdWrite (commandCode .u32 false) :: (us ++ []))
    let z₁ := { s₁ with dsize := 2#32 }
    let z₂ := { s₂ with dsize := 1#32 }
    (s₁.phase = phaseIdle ∧ s₂.phase = phaseIdle ∧ s₁.len = s₂.len ∧ s₁.seed = s₂.seed ∧
      (∀ a, a < s₁.len.toNat → s₁.dataByte a = s₂.dataByte a) ∧ s₁.len.toNat ≤ min s₁.dsize.toNat bufBytes ∧
      s₂.len.toNat ≤ min s₂.dsize.toNat bufBytes ∧ s₁.turns = cmdWrite (commandCode .u32 false) :: (us ++ []) ∧
      s₂.turns = cmdWrite (commandCode .u32 false) :: (us ++ []) ∧ (∀ v ∈ us, Turn.quiet v = true) ∧
      seqTurns us = groupCount .u32 s₁.len + 3) ∧
    min z₁.dsize.toNat bufBytes < z₁.len.toNat ∧ min z₂.dsize.toNat bufBytes < z₂.len.toNat := by decide

theorem witness_BytesBeyondTheLengthAreIgnored :
    ∀ a, a < (3#32 : Word).toNat → (holding letters).dataByte a = (holding [0x61#8, 0x62#8, 0x63#8]).dataByte a := by decide

/-- One byte of the one group changed, and one byte of the tail. -/
theorem witness_EveryByteParticipatesThirtyTwo :
    let d := (holding letters).dataByte
    let e := (holding [0x61#8, 0x62#8, 0x63#8, 0x64#8, 0x66#8, 0x66#8, 0x67#8, 0x68#8]).dataByte
    (∀ a, a < (7#32 : Word).toNat → a / 4 ≠ 1 → d a = e a) ∧ (4 < (7#32 : Word).toNat ∧ 4 / 4 = 1 ∧ d 4 ≠ e 4) ∧
    (∀ a, a < (8#32 : Word).toNat → a / 4 ≠ 1 → d a = e a) ∧ (4 < (8#32 : Word).toNat ∧ 4 / 4 = 1 ∧ d 4 ≠ e 4) := by decide

theorem witness_EveryByteParticipatesSixtyFour :
    let d := (holding letters).dataByte
    let e := (holding [0x61#8, 0x62#8, 0x63#8, 0x64#8, 0x66#8, 0x66#8, 0x67#8, 0x68#8]).dataByte
    (∀ a, a < (7#32 : Word).toNat → a / 8 ≠ 0 → d a = e a) ∧ (4 < (7#32 : Word).toNat ∧ 4 / 8 = 0 ∧ d 4 ≠ e 4) ∧
    (∀ a, a < (8#32 : Word).toNat → a / 8 ≠ 0 → d a = e a) ∧ (4 < (8#32 : Word).toNat ∧ 4 / 8 = 0 ∧ d 4 ≠ e 4) := by decide

end Sys2Proof.Tests
end

namespace Sys2Proof.Machine

/-! ### Reads of the sequencer outside the buffer -/

/-- A guarded read of at least one byte that ends above the buffer stops (R10; log 8). -/
theorem guardRead_out (off n : Nat) (k : Host.Outcome State Fault Refusal) (hn : n ≠ 0) (h : bufBytes < off + n) :
    guardRead off n k = .fault .readOutsideBuffer := by
  have hout : ¬ inBuffer off n = true := by
    rw [inBuffer_iff]
    omega
  exact if_neg hout

/-- The tail of U32 ends at `LEN` (R124). -/
theorem tailBase32_add_rem32 (l : Word) : tailBase32 l + rem32 l = l.toNat := by
  rw [tailBase32_eq, rem32_eq]
  exact Nat.div_add_mod l.toNat 4

/-- The tail of U64 ends at `LEN` (R144). -/
theorem tailBase64_add_rem64 (l : Word) : tailBase64 l + rem64 l = l.toNat := by
  rw [tailBase64_eq, rem64_eq]
  exact Nat.div_add_mod l.toNat 8

theorem exec_block32_out (s : State) (h : bufBytes < s.groupOff32 + 4) :
    exec .block32 s = .fault .readOutsideBuffer :=
  guardRead_out s.groupOff32 4 _ (by decide) h

theorem exec_block64_out (s : State) (h : bufBytes < s.groupOff64 + 8) :
    exec .block64 s = .fault .readOutsideBuffer :=
  guardRead_out s.groupOff64 8 _ (by decide) h

theorem exec_tail32_out (s : State) (hr : rem32 s.len ≠ 0) (h : bufBytes < s.len.toNat) :
    exec .tail32 s = .fault .readOutsideBuffer := by
  rw [← tailBase32_add_rem32] at h
  exact (execTail32_eq s).trans (guardRead_out _ _ _ hr h)

theorem exec_tail64_out (s : State) (hr : rem64 s.len ≠ 0) (h : bufBytes < s.len.toNat) :
    exec .tail64 s = .fault .readOutsideBuffer := by
  rw [← tailBase64_add_rem64] at h
  exact (execTail64_eq s).trans (guardRead_out _ _ _ hr h)

/-- Settles O36: a group ends at `4 * CNT + 4` or `8 * CNT + 8`, a tail at `LEN`, and the guard stops each read that
ends above the buffer. -/
theorem readsOutsideTheBufferStop : Obligations.ReadsOutsideTheBufferStop := by
  intro s
  refine ⟨exec_block32_out s, exec_block64_out s, fun hr h => ?_, fun hr h => ?_⟩
  · exact exec_tail32_out s (by rwa [rem32_eq]) h
  · exact exec_tail64_out s (by rwa [rem64_eq]) h

end Sys2Proof.Machine

namespace Sys2Proof.Machine

/-! ### The phase codes -/

/-- The five codes of R26 are distinct. -/
@[simp] theorem phases_distinct :
    (phaseIdle ≠ phaseInit ∧ phaseIdle ≠ phaseBlock ∧ phaseIdle ≠ phaseTail ∧ phaseIdle ≠ phaseFinal) ∧
    (phaseInit ≠ phaseIdle ∧ phaseInit ≠ phaseBlock ∧ phaseInit ≠ phaseTail ∧ phaseInit ≠ phaseFinal) ∧
    (phaseBlock ≠ phaseIdle ∧ phaseBlock ≠ phaseInit ∧ phaseBlock ≠ phaseTail ∧ phaseBlock ≠ phaseFinal) ∧
    (phaseTail ≠ phaseIdle ∧ phaseTail ≠ phaseInit ∧ phaseTail ≠ phaseBlock ∧ phaseTail ≠ phaseFinal) ∧
    phaseFinal ≠ phaseIdle ∧ phaseFinal ≠ phaseInit ∧ phaseFinal ≠ phaseBlock ∧ phaseFinal ≠ phaseTail := by
  decide

/-! ### The shared operations as equations -/

/-- Acceptance in one equation: the bounds check decides `ERR` and `PHASE` (R101, R161). -/
theorem State.accept_eq (s : State) (u : HashUnit) (d : Bool) : s.accept u d = { s with
    var := HashUnit.bit u, seed := s.commandSeed u d, result := 0#64, done := false, err := s.outOfBounds,
    phase := if s.outOfBounds then s.phase else phaseInit,
    reply := some { resp := .okay, rdata := none, reason := none } } := by
  cases hb : s.outOfBounds with
  | false => simpa using accept_inBounds s u d ((State.not_outOfBounds_iff s).mp hb)
  | true => simpa using accept_outOfBounds s u d ((State.outOfBounds_iff s).mp hb)

/-- A legal REG write other than `CMD` reaches the three operand registers only (R57). -/
theorem State.regWrite_operands (s : State) (off : Nat) (v : Word) :
    ∃ a b c, s.regWrite off v = { s with seed := a, len := b, dsize := c } := by
  rcases regWrite_eq s off v with ⟨_, h⟩ | ⟨_, h⟩ | ⟨_, h⟩ | ⟨_, _, _, h⟩ <;> exact ⟨_, _, _, h⟩

theorem step_host (s : State) (x : Transaction) (rest : List Turn) (h : s.turns = .host x :: rest) :
    step s = hostTransaction x { s with turns := rest } :=
  step_cons s _ rest h

/-- A command word in the idle block is accepted (R57, R101). -/
theorem step_command (s : State) (u : HashUnit) (d : Bool) (rest : List Turn)
    (hturns : s.turns = cmdWrite (commandCode u d) :: rest) (hp : s.phase = phaseIdle) :
    step s = .next (({ s with turns := rest } : State).accept u d) := by
  have hlegal : refusalOf { space := .reg, kind := .write (commandCode u d), off := 0x00, n := 4 }
      { s with turns := rest } = none := by
    simp [refusalOf, writeRefusal, legalSize, spaceEnd, readOnlyReg, legalCommand, decodeCommand_commandCode,
      (State.busy_eq_false_iff s).mpr hp]
  rw [step_host s _ rest hturns, hostTransaction_write _ _ _ hlegal rfl]
  simp only [legalWrite, commandWrite, decodeCommand_commandCode, if_true]
  exact (exec_commandInstr u d _).trans (execCommand_idle u d _ hp)

/-- At a turn of the sequencer its micro-operation runs, and with none selected the turn passes (R84, R174). -/
theorem step_sequencer (s t : State) (h : step s = .next t)
    (hseq : s.turns = [] ∨ ∃ rest, s.turns = .sequencer :: rest) :
    ∃ rest, (∃ i, decodeSelector s.selector = .ok i ∧ exec i { s with turns := rest } = .next t) ∨
      ∃ e, decodeSelector s.selector = .error e ∧ t = { s with turns := rest } := by
  rcases step_cases s t h with ⟨i, h0, hi, he⟩ | ⟨i, rest, _, hi, he⟩ | ⟨e, rest, _, hd, ht⟩ | ⟨x, rest, h0, _⟩ |
    ⟨rest, h0, _⟩
  · exact ⟨[], .inl ⟨i, hi, by rw [← h0]; exact he⟩⟩
  · exact ⟨rest, .inl ⟨i, hi, he⟩⟩
  · exact ⟨rest, .inr ⟨e, hd, ht⟩⟩
  · simp [h0] at hseq
  · simp [h0] at hseq

/-! ### Frames of the twelve instructions -/

/-- A command is refused or accepted (R68, R101). -/
theorem execCommand_next (u : HashUnit) (d : Bool) (s t : State) (h : execCommand u d s = .next t) :
    t = s.refuse none .busy ∨ t = s.accept u d := by
  by_cases hp : s.phase = phaseIdle
  · rw [execCommand_idle u d s hp] at h
    cases h
    exact .inr rfl
  · rw [execCommand_busy u d s hp] at h
    cases h
    exact .inl rfl

/-- The fields an instruction may write, by kind of instruction; what it writes there stays open. -/
theorem exec_writes (i : Instr) (s t : State) (h : exec i s = .next t) :
    (∃ u d, i = commandInstr u d ∧ (t = s.refuse none .busy ∨ t = s.accept u d)) ∨
    ((i = .init32 ∨ i = .block32) ∧ ∃ a c p, t = { s with h32 := a, cnt := c, phase := p }) ∨
    (i = .tail32 ∧ ∃ a p, t = { s with h32 := a, phase := p }) ∨
    (i = .final32 ∧ ∃ a r d p, t = { s with h32 := a, result := r, done := d, phase := p }) ∨
    ((i = .init64 ∨ i = .block64) ∧ ∃ a c p, t = { s with h64 := a, cnt := c, phase := p }) ∨
    (i = .tail64 ∧ ∃ a p, t = { s with h64 := a, phase := p }) ∨
    (i = .final64 ∧ ∃ a r d p, t = { s with h64 := a, result := r, done := d, phase := p }) := by
  cases i with
  | hash32 => exact .inl ⟨.u32, false, rfl, execCommand_next _ _ s t h⟩
  | hash64 => exact .inl ⟨.u64, false, rfl, execCommand_next _ _ s t h⟩
  | hash32d => exact .inl ⟨.u32, true, rfl, execCommand_next _ _ s t h⟩
  | hash64d => exact .inl ⟨.u64, true, rfl, execCommand_next _ _ s t h⟩
  | init32 => cases h; exact .inr (.inl ⟨.inl rfl, _, _, _, rfl⟩)
  | block32 =>
    obtain ⟨_, h⟩ := guardRead_next _ _ _ _ h
    cases h; exact .inr (.inl ⟨.inr rfl, _, _, _, rfl⟩)
  | tail32 =>
    obtain ⟨_, h⟩ := guardRead_next _ _ _ _ h
    cases h; exact .inr (.inr (.inl ⟨rfl, _, _, rfl⟩))
  | final32 => cases h; exact .inr (.inr (.inr (.inl ⟨rfl, _, _, _, _, rfl⟩)))
  | init64 => cases h; exact .inr (.inr (.inr (.inr (.inl ⟨.inl rfl, _, _, _, rfl⟩))))
  | block64 =>
    obtain ⟨_, h⟩ := guardRead_next _ _ _ _ h
    cases h; exact .inr (.inr (.inr (.inr (.inl ⟨.inr rfl, _, _, _, rfl⟩))))
  | tail64 =>
    obtain ⟨_, h⟩ := guardRead_next _ _ _ _ h
    cases h; exact .inr (.inr (.inr (.inr (.inr (.inl ⟨rfl, _, _, rfl⟩)))))
  | final64 => cases h; exact .inr (.inr (.inr (.inr (.inr (.inr ⟨rfl, _, _, _, _, rfl⟩)))))

/-- Settles O37: by kind of instruction, each writes only the fields `exec_writes` names, and a command without a
default seed keeps `SEED`. -/
theorem instructionsLeaveTheRestUnchanged : Obligations.InstructionsLeaveTheRestUnchanged := by
  intro i s t h
  rcases exec_writes i s t h with ⟨u, d, rfl, rfl | rfl⟩ | ⟨rfl | rfl, a, c, p, rfl⟩ | ⟨rfl, a, p, rfl⟩ |
    ⟨rfl, a, r, d, p, rfl⟩ | ⟨rfl | rfl, a, c, p, rfl⟩ | ⟨rfl, a, p, rfl⟩ | ⟨rfl, a, r, d, p, rfl⟩
  · cases u <;> cases d <;> simp [commandInstr]
  · rw [State.accept_eq]
    refine ⟨fun _ => rfl, ?_⟩
    cases u <;> cases d <;> simp [commandInstr, State.commandSeed]
  all_goals
    refine ⟨fun _ => rfl, ?_⟩
    simp

/-- The sequencer selects no command (R84). -/
theorem decodeSelector_not_command (s : State) (i : Instr) (hi : decodeSelector s.selector = .ok i) :
    i ∉ [Instr.hash32, .hash32d, .hash64, .hash64d] := by
  rcases decodeSelector_ok _ _ _ hi with ⟨_, rfl⟩ | ⟨_, rfl⟩ | ⟨_, rfl⟩ | ⟨_, rfl⟩ <;> split <;> decide

/-- A micro-operation leaves the operands alone (R21 to R23). -/
theorem micro_operands (s t : State) (i : Instr) (hi : decodeSelector s.selector = .ok i) (h : exec i s = .next t) :
    t.seed = s.seed ∧ t.len = s.len ∧ t.dsize = s.dsize := by
  have hsub : [Instr.hash32d, .hash64d] ⊆ [.hash32, .hash32d, .hash64, .hash64d] := by decide
  have hnot : i ∉ [Instr.hash32d, .hash64d] := fun hmem => decodeSelector_not_command s i hi (hsub hmem)
  obtain ⟨_, hlen, hdsize, _, _, hseed, _⟩ := instructionsLeaveTheRestUnchanged i s t h
  exact ⟨hseed hnot, hlen, hdsize⟩

/-! ### Micro-operations of both units at once -/

/-- `NBLK` of the unit `VAR` names (R120, R140). -/
def State.groups (s : State) : Nat := groupCount (if s.var then .u64 else .u32) s.len

theorem State.groups_u32 (s : State) (h : s.var = false) : s.groups = (nblk32 s.len).toNat := by
  simp [State.groups, h, groupCount, toNat_nblk32]

theorem State.groups_u64 (s : State) (h : s.var = true) : s.groups = (nblk64 s.len).toNat := by
  simp [State.groups, h, groupCount, toNat_nblk64]

theorem word_ne_zero_iff (n : Word) : n ≠ 0#32 ↔ (0#32).toNat < n.toNat := by
  rw [ne_eq, ← BitVec.toNat_inj]
  simp only [BitVec.toNat_ofNat]
  omega

/-- What a micro-operation does, by phase, for either unit: it runs the loop counter through the groups and then goes
along the graph of R26; `a` and `b` are the accumulators. -/
theorem micro_effect (s t : State) (i : Instr) (hi : decodeSelector s.selector = .ok i) (h : exec i s = .next t) :
    (s.phase = phaseInit ∧ ∃ a b, t = { s with
      h32 := a, h64 := b, cnt := 0#32, phase := if (0#32).toNat < s.groups then phaseBlock else phaseTail }) ∨
    (s.phase = phaseBlock ∧ ∃ a b, t = { s with
      h32 := a, h64 := b, cnt := s.cnt + 1#32
      phase := if (s.cnt + 1#32).toNat < s.groups then phaseBlock else phaseTail }) ∨
    (s.phase = phaseTail ∧ ∃ a b, t = { s with h32 := a, h64 := b, phase := phaseFinal }) ∨
    (s.phase = phaseFinal ∧ ∃ a b, t = { s with
      h32 := a, h64 := b, result := if s.var then b else a.setWidth 64, done := true, phase := phaseIdle }) := by
  rcases micro_cases s t i hi h with ⟨hp, hv, ht⟩ | ⟨hp, hv, ht⟩ | ⟨hp, hv, _, ht⟩ | ⟨hp, hv, _, ht⟩ |
    ⟨hp, _, ht⟩ | ⟨hp, _, ht⟩ | ⟨hp, hv, ht⟩ | ⟨hp, hv, ht⟩
  · simp only [word_ne_zero_iff, ← s.groups_u32 hv] at ht
    exact .inl ⟨hp, _, _, ht⟩
  · simp only [word_ne_zero_iff, ← s.groups_u64 hv] at ht
    exact .inl ⟨hp, _, _, ht⟩
  · simp only [BitVec.lt_def, ← s.groups_u32 hv] at ht
    exact .inr (.inl ⟨hp, _, _, ht⟩)
  · simp only [BitVec.lt_def, ← s.groups_u64 hv] at ht
    exact .inr (.inl ⟨hp, _, _, ht⟩)
  · exact .inr (.inr (.inl ⟨hp, _, _, ht⟩))
  · exact .inr (.inr (.inl ⟨hp, _, _, ht⟩))
  · exact .inr (.inr (.inr ⟨hp, fmix32 s.h32, s.h64, by simp [ht, hv]⟩))
  · exact .inr (.inr (.inr ⟨hp, s.h32, fmix64 s.h64, by simp [ht, hv]⟩))

/-! ### The machine invariant -/

/-- In the idle block the clauses on the running hash say nothing. -/
theorem State.Inv.of_idle {s : State} (hwf : Memory.wf s.data = true) (hin : ∀ c ∈ s.data, c.1 < bufBytes)
    (hp : s.phase = phaseIdle) (hdone : s.done = true → s.err = false) (hzero : s.done = false → s.result = 0#64)
    (h32 : s.done = true → s.var = false → s.result = s.h32.setWidth 64)
    (h64 : s.done = true → s.var = true → s.result = s.h64) : s.Inv := by
  have not_running {q : BitVec 3} (hq : s.phase = q) (hne : phaseIdle ≠ q) {P : Prop} : P :=
    absurd (hp.symm.trans hq) hne
  exact {
    memWf := hwf, memIn := hin, phaseLegal := by rw [hp]; decide
    busyAlone := fun hb => not_running rfl ((State.busy_eq_true_iff s).mp hb).symm
    doneAlone := hdone, resultZero := hzero, result32 := h32, result64 := h64
    inBounds := fun hb => absurd hp ((State.busy_eq_true_iff s).mp hb)
    block32 := fun hq _ => not_running hq (by decide)
    block64 := fun hq _ => not_running hq (by decide)
    tail32 := fun hq _ => hq.elim (not_running · (by decide)) (not_running · (by decide))
    tail64 := fun hq _ => hq.elim (not_running · (by decide)) (not_running · (by decide)) }

/-- While a hash runs `DONE`, `ERR` and `RESULT` are 0, and the counter's clauses read alike for both units. -/
theorem State.Inv.of_running {s : State} (hwf : Memory.wf s.data = true) (hin : ∀ c ∈ s.data, c.1 < bufBytes)
    (hp : s.phase.toNat ≤ 4) (hflags : s.done = false ∧ s.err = false) (hzero : s.result = 0#64)
    (hbounds : s.len.toNat ≤ s.avail) (hblock : s.phase = phaseBlock → s.cnt.toNat < s.groups)
    (htail : s.phase = phaseTail ∨ s.phase = phaseFinal → s.cnt.toNat = s.groups) : s.Inv where
  memWf := hwf
  memIn := hin
  phaseLegal := hp
  busyAlone _ := hflags
  doneAlone _ := hflags.2
  resultZero _ := hzero
  result32 h := by simp [hflags.1] at h
  result64 h := by simp [hflags.1] at h
  inBounds _ := hbounds
  block32 h hv := by rw [BitVec.lt_def, ← s.groups_u32 hv]; exact hblock h
  block64 h hv := by rw [BitVec.lt_def, ← s.groups_u64 hv]; exact hblock h
  tail32 h hv := by rw [← BitVec.toNat_inj, ← s.groups_u32 hv]; exact htail h
  tail64 h hv := by rw [← BitVec.toNat_inj, ← s.groups_u64 hv]; exact htail h

theorem State.Inv.cnt_lt_groups {s : State} (hs : s.Inv) (hp : s.phase = phaseBlock) : s.cnt.toNat < s.groups := by
  cases hv : s.var with
  | false => rw [s.groups_u32 hv]; exact hs.block32 hp hv
  | true => rw [s.groups_u64 hv]; exact hs.block64 hp hv

theorem State.Inv.cnt_eq_groups {s : State} (hs : s.Inv) (hp : s.phase = phaseTail ∨ s.phase = phaseFinal) :
    s.cnt.toNat = s.groups := by
  cases hv : s.var with
  | false => rw [s.groups_u32 hv, hs.tail32 hp hv]
  | true => rw [s.groups_u64 hv, hs.tail64 hp hv]

/-- The invariant does not speak of the model's own fields `turns` and `reply`. -/
theorem State.Inv.turns_reply {s : State} (hs : s.Inv) (us : List Turn) (rep : Option Reply) :
    ({ s with turns := us, reply := rep } : State).Inv :=
  ⟨hs.memWf, hs.memIn, hs.phaseLegal, hs.busyAlone, hs.doneAlone, hs.resultZero, hs.result32, hs.result64,
    hs.inBounds, hs.block32, hs.block64, hs.tail32, hs.tail64⟩

/-- The registers after reset meet the invariant, in any epoch and whatever comes next (R36). -/
theorem reset_inv (epoch : Nat) (us : List Turn) : ({ State.reset with resets := epoch, turns := us } : State).Inv :=
  .of_idle rfl (List.forall_mem_nil _) rfl (fun _ => rfl) (fun _ => rfl) (fun _ _ => rfl) (fun _ _ => rfl)

theorem State.HashInv.of_idle {s : State} (hp : s.phase = phaseIdle) : s.HashInv := by
  constructor <;> simp [hp]

theorem State.Inv.dataWrite {s : State} (hs : s.Inv) (hp : s.phase = phaseIdle) (off n : Nat) (v : Word)
    (hend : off + n ≤ bufBytes) : (s.dataWrite off n v).okayWrite.Inv := by
  refine .of_idle (Memory.wf_putBytes n _ _ _ hs.memWf) (fun c hc => ?_) hp hs.doneAlone hs.resultZero hs.result32
    hs.result64
  rcases Memory.mem_putBytes n s.data off v c hc with ⟨_, hlt⟩ | hold
  · omega
  · exact hs.memIn c hold

theorem State.Inv.regWrite {s : State} (hs : s.Inv) (hp : s.phase = phaseIdle) (off : Nat) (v : Word) :
    (s.regWrite off v).okayWrite.Inv := by
  obtain ⟨a, b, c, heq⟩ := s.regWrite_operands off v
  rw [heq]
  exact .of_idle hs.memWf hs.memIn hp hs.doneAlone hs.resultZero hs.result32 hs.result64

/-- Acceptance starts a hash within bounds or stays idle with `ERR` (R101, R106). -/
theorem State.Inv.accept {s : State} (hs : s.Inv) (hp : s.phase = phaseIdle) (u : HashUnit) (d : Bool) :
    (s.accept u d).Inv := by
  rw [State.accept_eq]
  cases hb : s.outOfBounds with
  | true => exact .of_idle hs.memWf hs.memIn hp (by simp) (by simp) (by simp) (by simp)
  | false =>
    exact .of_running hs.memWf hs.memIn (by simp) ⟨rfl, rfl⟩ rfl ((State.not_outOfBounds_iff s).mp hb)
      (by simp) (by simp)

/-- INIT and BLOCK leave the counter within the groups, and the phase says whether one is left (R27, R120, R140). -/
theorem State.Inv.loop {s : State} (hs : s.Inv) (hp : s.phase ≠ phaseIdle) (a : Word) (b : DWord) (c : Word)
    (hc : c.toNat ≤ s.groups) :
    ({ s with
      h32 := a, h64 := b, cnt := c, phase := if c.toNat < s.groups then phaseBlock else phaseTail } : State).Inv := by
  have hbusy := (State.busy_eq_true_iff s).mpr hp
  have hflags := hs.busyAlone hbusy
  by_cases hlt : c.toNat < s.groups
  · simp only [if_pos hlt]
    exact .of_running hs.memWf hs.memIn (by simp) hflags (hs.resultZero hflags.1) (hs.inBounds hbusy) (fun _ => hlt)
      (by simp)
  · simp only [if_neg hlt]
    exact .of_running hs.memWf hs.memIn (by simp) hflags (hs.resultZero hflags.1) (hs.inBounds hbusy) (by simp)
      (fun _ => Nat.le_antisymm hc (Nat.not_lt.mp hlt))

theorem State.Inv.micro {s t : State} (hs : s.Inv) {i : Instr} (hi : decodeSelector s.selector = .ok i)
    (h : exec i s = .next t) : t.Inv := by
  have flags (hp : s.phase ≠ phaseIdle) := hs.busyAlone ((State.busy_eq_true_iff s).mpr hp)
  rcases micro_effect s t i hi h with ⟨hp, a, b, rfl⟩ | ⟨hp, a, b, rfl⟩ | ⟨hp, a, b, rfl⟩ | ⟨hp, a, b, rfl⟩
  · exact hs.loop (by simp [hp]) a b 0#32 (Nat.zero_le _)
  · have hlt := hs.cnt_lt_groups hp
    exact hs.loop (by simp [hp]) a b (s.cnt + 1#32) (Nat.le_trans (Nat.mod_le _ _) hlt)
  · have hf := flags (by simp [hp])
    exact .of_running hs.memWf hs.memIn (by simp) hf (hs.resultZero hf.1)
      (hs.inBounds ((State.busy_eq_true_iff s).mpr (by simp [hp]))) (by simp) (fun _ => hs.cnt_eq_groups (.inl hp))
  · have hf := flags (by simp [hp])
    exact .of_idle hs.memWf hs.memIn rfl (fun _ => hf.2) (by simp) (by simp +contextual) (by simp +contextual)

/-- Settles O39: by what a step can do, each of the six effects keeps the invariant. -/
theorem everyStepKeepsTheInvariant : Obligations.EveryStepKeepsTheInvariant := by
  intro s t hs h
  have turns (us : List Turn) : ({ s with turns := us } : State).Inv := hs.turns_reply us s.reply
  rcases step_effect s t h with ⟨rest, _, rfl⟩ | ⟨u, rest, rep, _, _, rfl⟩ | ⟨off, n, v, rest, _, hp, hend, rfl⟩ |
    ⟨off, v, rest, _, hp, _, rfl⟩ | ⟨u, d, rest, _, hp, rfl⟩ | ⟨i, rest, _, hi, he⟩
  · exact reset_inv (s.resets + 1) rest
  · exact hs.turns_reply rest rep
  · exact (turns rest).dataWrite hp off n v hend
  · exact (turns rest).regWrite hp off v
  · exact (turns rest).accept hp u d
  · exact (turns rest).micro hi he

/-- Settles O38: the reset state is idle with every register 0. -/
theorem resetMeetsTheInvariant : Obligations.ResetMeetsTheInvariant :=
  fun us => ⟨reset_inv 0 us, .of_idle rfl⟩

/-- What every step keeps, every run keeps. -/
theorem run_keeps {P : State → Prop} (hstep : ∀ s t, P s → step s = .next t → P t) (n : Nat) :
    ∀ s t, P s → run n s = .next t → P t := by
  induction n with
  | zero => intro s t hs h; cases h; exact hs
  | succ n ih =>
    intro s t hs h
    rw [run] at h
    split at h
    · next u hu => exact ih u t (hstep s u hs hu) h
    · cases h
    · cases h

/-! ### The flags -/

theorem State.Inv.oneFlag_or_none {s : State} (hs : s.Inv) :
    s.oneFlag ∨ (s.busy = false ∧ s.done = false ∧ s.err = false) := by
  cases hb : s.busy with
  | true => exact .inl (.inl ⟨hb, hs.busyAlone hb⟩)
  | false =>
    cases hd : s.done with
    | true => exact .inl (.inr (.inl ⟨hb, hd, hs.doneAlone hd⟩))
    | false =>
      cases he : s.err with
      | true => exact .inl (.inr (.inr ⟨hb, hd, he⟩))
      | false => exact .inr ⟨rfl, rfl, rfl⟩

/-- A running hash excludes `DONE` and `ERR` (R33). -/
theorem State.oneFlag.not_done_err {s : State} (hs : s.oneFlag) (hp : s.phase ≠ phaseIdle) :
    s.done = false ∧ s.err = false := by
  have hbusy := (State.busy_eq_true_iff s).mpr hp
  simpa [State.oneFlag, hbusy] using hs

theorem accept_oneFlag (s : State) (u : HashUnit) (d : Bool) (hp : s.phase = phaseIdle) : (s.accept u d).oneFlag := by
  rw [State.accept_eq]
  cases hb : s.outOfBounds <;> simp [State.oneFlag, State.busy, hp]

theorem loop_phase_ne_idle (c n : Nat) : (if c < n then phaseBlock else phaseTail) ≠ phaseIdle := by
  split <;> decide

/-- A micro-operation keeps `BUSY` or trades it for `DONE` (R26, R33). -/
theorem micro_oneFlag (s t : State) (i : Instr) (hi : decodeSelector s.selector = .ok i) (h : exec i s = .next t)
    (hs : s.oneFlag) : t.oneFlag := by
  have flags := hs.not_done_err
  rcases micro_effect s t i hi h with ⟨hp, a, b, rfl⟩ | ⟨hp, a, b, rfl⟩ | ⟨hp, a, b, rfl⟩ | ⟨hp, a, b, rfl⟩
  · exact .inl ⟨(State.busy_eq_true_iff _).mpr (loop_phase_ne_idle _ _), flags (by simp [hp])⟩
  · exact .inl ⟨(State.busy_eq_true_iff _).mpr (loop_phase_ne_idle _ _), flags (by simp [hp])⟩
  · exact .inl ⟨rfl, flags (by simp [hp])⟩
  · exact .inr (.inl ⟨rfl, rfl, (flags (by simp [hp])).2⟩)

theorem step_oneFlag (s t : State) (hs : s.oneFlag) (h : step s = .next t) (hr : ∀ rest, s.turns ≠ .reset :: rest) :
    t.oneFlag := by
  rcases step_effect s t h with ⟨rest, h0, _⟩ | ⟨u, rest, rep, _, _, rfl⟩ | ⟨off, n, v, rest, _, _, _, rfl⟩ |
    ⟨off, v, rest, _, _, _, rfl⟩ | ⟨u, d, rest, _, hp, rfl⟩ | ⟨i, rest, _, hi, he⟩
  · exact absurd h0 (hr rest)
  · exact hs
  · exact hs
  · obtain ⟨a, b, c, heq⟩ := ({ s with turns := rest } : State).regWrite_operands off v
    rw [heq]
    exact hs
  · exact accept_oneFlag _ u d hp
  · exact micro_oneFlag { s with turns := rest } t i hi he hs

/-- Settles O41: reachable states meet the invariant; acceptance sets one flag, and each step keeps it one. -/
theorem atMostOneFlagIsSet : Obligations.AtMostOneFlagIsSet := by
  refine ⟨fun us n t h => ?_, ⟨rfl, rfl, rfl⟩, fun s u d hp => ?_, fun s t _ => step_oneFlag s t⟩
  · have hinv : t.Inv := run_keeps everyStepKeepsTheInvariant n _ t (reset_inv 0 us) h
    exact hinv.oneFlag_or_none
  · exact ⟨s.accept u d, by rw [exec_commandInstr, execCommand_idle u d s hp], accept_oneFlag s u d hp⟩

/-! ### `PHASE` -/

/-- The bounds check decides whether a hash starts (R101). -/
theorem accept_phase (s : State) (u : HashUnit) (d : Bool) (hp : s.phase = phaseIdle) :
    (s.accept u d).phase = if s.len.toNat ≤ min s.dsize.toNat bufBytes then phaseInit else phaseIdle := by
  by_cases hb : s.len.toNat ≤ min s.dsize.toNat bufBytes
  · rw [accept_inBounds s u d hb, if_pos hb]
  · rw [accept_outOfBounds s u d (Nat.not_le.mp hb), if_neg hb]
    exact hp

/-- At a turn of the sequencer (R26, R84). -/
theorem sequencer_phase (s t : State) (h : step s = .next t)
    (hseq : s.turns = [] ∨ ∃ rest, s.turns = .sequencer :: rest) :
    (s.phase = phaseInit → t.phase = if 0 < s.groups then phaseBlock else phaseTail) ∧
    (s.phase = phaseBlock → t.phase = if (s.cnt + 1#32).toNat < s.groups then phaseBlock else phaseTail) ∧
    (s.phase = phaseTail → t.phase = phaseFinal) ∧
    (s.phase = phaseFinal → t.phase = phaseIdle) ∧
    (s.phase = phaseIdle ∨ 5 ≤ s.phase.toNat → t.phase = s.phase) := by
  obtain ⟨rest, ⟨i, hi, he⟩ | ⟨e, hd, rfl⟩⟩ := step_sequencer s t h hseq
  · rcases micro_effect { s with turns := rest } t i hi he with ⟨hp, a, b, rfl⟩ | ⟨hp, a, b, rfl⟩ | ⟨hp, a, b, rfl⟩ |
      ⟨hp, a, b, rfl⟩
    all_goals
      replace hp : s.phase = _ := hp
      simp [hp]
    · rfl
    · rfl
  · rcases decodeSelector_error _ _ _ hd with hp | hp
    · simp [hp]
    · refine ⟨?_, ?_, ?_, ?_, fun _ => rfl⟩ <;> intro hq <;> simp [hq] at hp

/-- Settles O44: a reset, an acceptance, a turn of the sequencer, and the turns that touch no phase. -/
theorem phaseFollowsTheFixedGraph : Obligations.PhaseFollowsTheFixedGraph := by
  intro s t h groups resets accepts sequencer
  refine ⟨?_, ?_, sequencer_phase s t h, fun hreset haccept hseq => ?_⟩
  · rintro ⟨rest, hturns⟩
    rw [step_cons s _ rest hturns] at h
    cases h
    rfl
  · rintro ⟨hp, u, d, rest, hturns⟩
    rw [step_command s u d rest hturns hp] at h
    cases h
    exact accept_phase { s with turns := rest } u d hp
  · rcases step_effect s t h with ⟨rest, h0, _⟩ | ⟨u, rest, rep, _, _, rfl⟩ | ⟨off, n, v, rest, _, _, _, rfl⟩ |
      ⟨off, v, rest, _, _, _, rfl⟩ | ⟨u, d, rest, h0, hp, _⟩ | ⟨i, rest, ⟨h0, _⟩ | h0, _, _⟩
    · exact absurd ⟨rest, h0⟩ hreset
    · rfl
    · rfl
    · obtain ⟨a, b, c, heq⟩ := ({ s with turns := rest } : State).regWrite_operands off v
      rw [heq]
      rfl
    · exact absurd ⟨hp, u, d, rest, h0⟩ haccept
    · exact absurd (.inl h0) hseq
    · exact absurd (.inr ⟨rest, h0⟩) hseq

/-! ### What writes `DATA`, the operands and `RESULT` -/

/-- Settles O45: of the effects of a step only reset and a buffer write reach `DATA`, and the write only its bytes. -/
theorem dataChangesOnlyByHostWriteOrReset : Obligations.DataChangesOnlyByHostWriteOrReset := by
  intro s t a h hne
  rcases step_effect s t h with ⟨rest, h0, _⟩ | ⟨u, rest, rep, _, _, rfl⟩ | ⟨off, n, v, rest, h0, hp, _, rfl⟩ |
    ⟨off, v, rest, _, _, _, rfl⟩ | ⟨u, d, rest, _, _, rfl⟩ | ⟨i, rest, _, _, he⟩
  · exact .inl ⟨rest, h0⟩
  · exact absurd rfl hne
  · have hcover : ¬ (a < off ∨ off + n ≤ a) := fun hout =>
      hne (State.dataByte_dataWrite_other { s with turns := rest } off n v a hout)
    exact .inr ⟨off, n, v, rest, h0, hp, by omega, by omega⟩
  · obtain ⟨x, y, z, heq⟩ := ({ s with turns := rest } : State).regWrite_operands off v
    rw [heq] at hne
    exact absurd rfl hne
  · rw [State.accept_eq] at hne
    exact absurd rfl hne
  · exact absurd ((instructionsLeaveTheRestUnchanged i _ t he).1 a) hne

/-- Settles O46: of the effects of a step only a register write and the default seed of a command reach the
operands. -/
theorem operandsAreWrittenOnlyByTheHost : Obligations.OperandsAreWrittenOnlyByTheHost := by
  intro s t h hreset
  rcases step_effect s t h with ⟨rest, h0, _⟩ | ⟨u, rest, rep, _, _, rfl⟩ | ⟨off, n, v, rest, _, _, _, rfl⟩ |
    ⟨off, v, rest, h0, hp, rfl | rfl | rfl, rfl⟩ | ⟨u, d, rest, h0, hp, rfl⟩ | ⟨i, rest, _, hi, he⟩
  · exact absurd h0 (hreset rest)
  · simp
  · simp
  · exact ⟨fun hne => absurd rfl hne, fun hne => absurd rfl hne, fun _ => ⟨hp, rest, .inl h0⟩⟩
  · exact ⟨fun _ => ⟨hp, rest, h0⟩, fun hne => absurd rfl hne, fun hne => absurd rfl hne⟩
  · exact ⟨fun hne => absurd rfl hne, fun _ => ⟨hp, rest, h0⟩, fun hne => absurd rfl hne⟩
  · rw [State.accept_eq]
    refine ⟨fun hne => absurd rfl hne, fun hne => absurd rfl hne, fun hne => ?_⟩
    cases d with
    | false => exact absurd rfl hne
    | true =>
      cases u with
      | u32 => exact ⟨hp, rest, .inr (.inl ⟨h0, rfl⟩)⟩
      | u64 => exact ⟨hp, rest, .inr (.inr ⟨h0, rfl⟩)⟩
  · obtain ⟨hseed, hlen, hdsize⟩ := micro_operands { s with turns := rest } t i hi he
    exact ⟨fun hne => absurd hlen hne, fun hne => absurd hdsize hne, fun hne => absurd hseed hne⟩

/-- A micro-operation that changes `RESULT` is FINAL32 or FINAL64 (R127, R147). -/
theorem micro_result (s t : State) (i : Instr) (hi : decodeSelector s.selector = .ok i) (h : exec i s = .next t)
    (hne : t.result ≠ s.result) :
    (s.var = false ∧ s.phase = phaseFinal ∧ t.result = (fmix32 s.h32).setWidth 64 ∧ t.done = true) ∨
    (s.var = true ∧ s.phase = phaseFinal ∧ t.result = fmix64 s.h64 ∧ t.done = true) := by
  rcases micro_cases s t i hi h with ⟨_, _, rfl⟩ | ⟨_, _, rfl⟩ | ⟨_, _, _, rfl⟩ | ⟨_, _, _, rfl⟩ |
    ⟨_, _, rfl⟩ | ⟨_, _, rfl⟩ | ⟨hp, hv, rfl⟩ | ⟨hp, hv, rfl⟩
  case inr.inr.inr.inr.inr.inr.inl => exact .inl ⟨hv, hp, rfl, rfl⟩
  case inr.inr.inr.inr.inr.inr.inr => exact .inr ⟨hv, hp, rfl, rfl⟩
  all_goals exact absurd rfl hne

/-- Settles O47: of the effects of a step only acceptance and the two FINAL micro-operations reach `RESULT`. -/
theorem resultIsWrittenInThreeWays : Obligations.ResultIsWrittenInThreeWays := by
  intro s t h hne hreset
  rcases step_effect s t h with ⟨rest, h0, _⟩ | ⟨u, rest, rep, _, _, rfl⟩ | ⟨off, n, v, rest, _, _, _, rfl⟩ |
    ⟨off, v, rest, _, _, _, rfl⟩ | ⟨u, d, rest, h0, hp, rfl⟩ | ⟨i, rest, _, hi, he⟩
  · exact absurd h0 (hreset rest)
  · exact absurd rfl hne
  · exact absurd rfl hne
  · obtain ⟨a, b, c, heq⟩ := ({ s with turns := rest } : State).regWrite_operands off v
    rw [heq] at hne
    exact absurd rfl hne
  · exact .inl ⟨hp, by rw [State.accept_eq], u, d, rest, h0⟩
  · exact .inr (micro_result { s with turns := rest } t i hi he hne)

/-! ### What the host can read -/

/-- Two states agree on everything a host read may return: all but `PHASE` beyond `BUSY`, `CNT`, `H32`, `H64` (R35). -/
structure State.VisibleAlike (s t : State) : Prop where
  seed : s.seed = t.seed
  len : s.len = t.len
  dsize : s.dsize = t.dsize
  result : s.result = t.result
  done : s.done = t.done
  err : s.err = t.err
  var : s.var = t.var
  idle : s.phase = phaseIdle ↔ t.phase = phaseIdle
  data : s.dataByte = t.dataByte

theorem State.VisibleAlike.status {s t : State} (h : s.VisibleAlike t) : s.status = t.status := by
  have hbusy : s.busy = t.busy := by
    rw [Bool.eq_iff_iff, State.busy_eq_true_iff, State.busy_eq_true_iff]
    exact not_congr h.idle
  simp only [State.status, hbusy, h.done, h.err, h.var]

/-- The data of a read is a function of what is visible (R55, R58). -/
theorem State.VisibleAlike.readValue {s t : State} (h : s.VisibleAlike t) (x : Transaction) :
    readValue x s = readValue x t := by
  have hreg : s.regRead x.off = t.regRead x.off := by
    simp only [State.regRead, State.resultLo, State.resultHi, h.status, h.seed, h.len, h.dsize, h.result]
  simp only [Machine.readValue, State.dataRead, hreg, h.data]

/-- Whether a read is legal does not depend on the state (R61). -/
theorem refusalOf_read (x : Transaction) (s t : State) (hk : x.kind = .read) : refusalOf x s = refusalOf x t := by
  simp only [refusalOf, hk]

/-- Settles O22: a read is refused alike in both states, or returns data that depends on what is visible only. -/
theorem hiddenRegistersCannotBeRead : Obligations.HiddenRegistersCannotBeRead := by
  intro s₁ s₂ t₁ t₂ x rest hturns₁ hturns₂ hk hseed hlen hdsize hresult hdone herr hvar hidle hdata h₁ h₂
  have alike : ({ s₁ with turns := rest } : State).VisibleAlike { s₂ with turns := rest } :=
    ⟨hseed, hlen, hdsize, hresult, hdone, herr, hvar, hidle, funext hdata⟩
  have hrefusal := refusalOf_read x { s₁ with turns := rest } { s₂ with turns := rest } hk
  rw [step_host s₁ x rest hturns₁] at h₁
  rw [step_host s₂ x rest hturns₂] at h₂
  cases hr : refusalOf x { s₂ with turns := rest } with
  | some r =>
    rw [hostTransaction_refused x _ r (hrefusal.trans hr)] at h₁
    rw [hostTransaction_refused x _ r hr] at h₂
    cases h₁
    cases h₂
    rfl
  | none =>
    rw [hostTransaction_read x _ (hrefusal.trans hr) hk, alike.readValue x] at h₁
    rw [hostTransaction_read x _ hr hk] at h₂
    cases h₁
    cases h₂
    rfl

/-! ### Reset values and `STATUS` -/

theorem Memory.find_eq_none (m : Memory) (a : Nat) (h : ∀ c ∈ m, c.1 ≠ a) : m.find a = none := by
  induction m with
  | nil => rfl
  | cons c m ih =>
    rw [List.forall_mem_cons] at h
    obtain ⟨hc, hm⟩ := h
    rw [Memory.find, if_neg hc.symm, ih hm]

/-- Settles O1: the registers by their values, the cells because none is listed as written. -/
theorem resetStateIsZeroIdleAndDataFree : Obligations.ResetStateIsZeroIdleAndDataFree := by
  refine ⟨rfl, rfl, rfl, rfl, rfl, rfl, rfl, rfl, rfl, rfl, rfl, rfl, State.dataByte_of_nil State.reset rfl,
    fun s off hfree => ?_⟩
  rw [State.dataByte, Memory.find_eq_none s.data off hfree]
  rfl

/-- `STATUS` by bit number (R25). -/
theorem State.status_bit (s : State) (i : Nat) :
    s.status.getLsbD i = [s.busy, s.done, s.err, s.var].getD i false := by
  unfold State.status
  rw [BitVec.getLsbD_append, BitVec.getLsbD_append, BitVec.getLsbD_append, BitVec.getLsbD_append]
  rcases i with _ | _ | _ | _ | i <;> simp

/-- Settles O15: bits 0 to 3 are the four flags in their order, and from bit 4 on there is none. -/
theorem statusBitsAreTheFlags : Obligations.StatusBitsAreTheFlags := by
  intro s
  refine ⟨?_, s.status_bit 1, s.status_bit 2, s.status_bit 3, fun i hi => ?_⟩
  · rw [s.status_bit 0]
    exact s.busy_eq_true_iff
  · rw [s.status_bit i]
    exact List.getD_eq_default _ _ hi

end Sys2Proof.Machine

namespace Sys2Proof.Machine

/-! ### The sequencer completes its step -/

/-- The bytes a running hash was given lie in the buffer (R62, R106). -/
theorem State.Inv.len_le_bufBytes {s : State} (hs : s.Inv) (hp : s.phase ≠ phaseIdle) : s.len.toNat ≤ bufBytes :=
  Nat.le_trans (hs.inBounds ((State.busy_eq_true_iff s).mpr hp)) (Nat.min_le_right _ _)

/-- The group number `CNT` of U32 lies below `LEN` (R27, R62). -/
theorem State.Inv.group32_inBuffer {s : State} (hs : s.Inv) (hp : s.phase = phaseBlock) (hv : s.var = false) :
    s.groupOff32 + 4 ≤ bufBytes := by
  have hcnt : s.cnt.toNat < s.len.toNat / 4 := by
    simpa only [s.groups_u32 hv, toNat_nblk32] using hs.cnt_lt_groups hp
  have hlen := hs.len_le_bufBytes (by simp [hp])
  unfold State.groupOff32
  omega

/-- The group number `CNT` of U64 lies below `LEN` (R27, R62). -/
theorem State.Inv.group64_inBuffer {s : State} (hs : s.Inv) (hp : s.phase = phaseBlock) (hv : s.var = true) :
    s.groupOff64 + 8 ≤ bufBytes := by
  have hcnt : s.cnt.toNat < s.len.toNat / 8 := by
    simpa only [s.groups_u64 hv, toNat_nblk64] using hs.cnt_lt_groups hp
  have hlen := hs.len_le_bufBytes (by simp [hp])
  unfold State.groupOff64
  omega

theorem exec_tail32_in (s : State) (h : s.len.toNat ≤ bufBytes) : ∃ t, exec .tail32 s = .next t := by
  rw [← tailBase32_add_rem32] at h
  exact ⟨_, (execTail32_eq s).trans (guardRead_in _ _ _ (.inr h))⟩

theorem exec_tail64_in (s : State) (h : s.len.toNat ≤ bufBytes) : ∃ t, exec .tail64 s = .next t := by
  rw [← tailBase64_add_rem64] at h
  exact ⟨_, (execTail64_eq s).trans (guardRead_in _ _ _ (.inr h))⟩

/-- The micro-operation that is selected completes: INIT and FINAL read no byte, a group and a tail end within `LEN`
(R62). -/
theorem State.Inv.micro_completes {s : State} (hs : s.Inv) {i : Instr} (hi : decodeSelector s.selector = .ok i) :
    ∃ t, exec i s = .next t := by
  cases hv : s.var with
  | false =>
    rcases decodeSelector_ok _ _ _ hi with ⟨_, rfl⟩ | ⟨hp, rfl⟩ | ⟨hp, rfl⟩ | ⟨_, rfl⟩ <;> rw [hv]
    · exact ⟨_, rfl⟩
    · exact ⟨_, guardRead_in _ _ _ (.inr (hs.group32_inBuffer hp hv))⟩
    · exact exec_tail32_in s (hs.len_le_bufBytes (by simp [hp]))
    · exact ⟨_, rfl⟩
  | true =>
    rcases decodeSelector_ok _ _ _ hi with ⟨_, rfl⟩ | ⟨hp, rfl⟩ | ⟨hp, rfl⟩ | ⟨_, rfl⟩ <;> rw [hv]
    · exact ⟨_, rfl⟩
    · exact ⟨_, guardRead_in _ _ _ (.inr (hs.group64_inBuffer hp hv))⟩
    · exact exec_tail64_in s (hs.len_le_bufBytes (by simp [hp]))
    · exact ⟨_, rfl⟩

/-! ### Every step completes, or the block waits -/

theorem exec_command_completes (u : HashUnit) (d : Bool) (s : State) : ∃ t, exec (commandInstr u d) s = .next t := by
  rw [exec_commandInstr]
  by_cases hp : s.phase = phaseIdle
  · exact ⟨_, execCommand_idle u d s hp⟩
  · exact ⟨_, execCommand_busy u d s hp⟩

theorem commandWrite_completes (v : Word) (s : State) : ∃ t, commandWrite v s = .next t := by
  unfold commandWrite
  split
  · next i hi =>
    obtain ⟨u, d, rfl, rfl⟩ := decodeCommand_ok v i hi
    exact exec_command_completes u d s
  · exact ⟨_, rfl⟩

/-- The port answers every transaction (R54). -/
theorem hostTransaction_completes (x : Transaction) (s : State) : ∃ t, hostTransaction x s = .next t := by
  cases hr : refusalOf x s with
  | some r => exact ⟨_, hostTransaction_refused x s r hr⟩
  | none =>
    cases hk : x.kind with
    | read => exact ⟨_, hostTransaction_read x s hr hk⟩
    | write v =>
      rw [hostTransaction_write x s v hr hk]
      unfold legalWrite
      split
      · exact ⟨_, rfl⟩
      · split
        · exact commandWrite_completes v s
        · exact ⟨_, rfl⟩

/-- With a micro-operation selected, it runs at the sequencer's turn and with the host silent (R66, R84). -/
theorem step_selected (s : State) (i : Instr) (hi : decodeSelector s.selector = .ok i)
    (hseq : s.turns = [] ∨ ∃ rest, s.turns = .sequencer :: rest) :
    ∃ rest, step s = exec i { s with turns := rest } := by
  rcases hseq with h0 | ⟨rest, h0⟩
  · refine ⟨[], ?_⟩
    simp only [step, h0, sequencerAlone, hi]
    rw [← h0]
  · refine ⟨rest, ?_⟩
    rw [step_cons s _ rest h0]
    simp only [takeTurn, sequencerTurn, State.turns_selector, hi]

theorem State.Inv.step_selected_completes {s : State} (hs : s.Inv) {i : Instr} (hi : decodeSelector s.selector = .ok i)
    (hseq : s.turns = [] ∨ ∃ rest, s.turns = .sequencer :: rest) :
    ∃ rest t, step s = .next t ∧ exec i { s with turns := rest } = .next t := by
  obtain ⟨rest, hstep⟩ := step_selected s i hi hseq
  obtain ⟨t, ht⟩ := (hs.turns_reply rest s.reply).micro_completes hi
  exact ⟨rest, t, hstep.trans ht, ht⟩

/-- From a state that meets the invariant a step completes, or nothing is offered and the block waits (R62, R172). -/
theorem State.Inv.step_completes_or_waits {s : State} (hs : s.Inv) :
    (∃ t, step s = .next t) ∨ step s = .fault .noStep := by
  rcases hturns : s.turns with _ | ⟨u, rest⟩
  · cases hd : decodeSelector s.selector with
    | ok i =>
      obtain ⟨_, t, ht, _⟩ := hs.step_selected_completes hd (.inl hturns)
      exact .inl ⟨t, ht⟩
    | error e =>
      right
      simp only [step, hturns, sequencerAlone, hd]
  · left
    cases u with
    | host x =>
      rw [step_host s x rest hturns]
      exact hostTransaction_completes x _
    | sequencer =>
      cases hd : decodeSelector s.selector with
      | ok i =>
        obtain ⟨_, t, ht, _⟩ := hs.step_selected_completes hd (.inr ⟨rest, hturns⟩)
        exact ⟨t, ht⟩
      | error e =>
        rw [step_cons s _ rest hturns]
        simp only [takeTurn, sequencerTurn, State.turns_selector, hd]
        exact ⟨_, rfl⟩
    | reset => exact ⟨_, step_cons s _ rest hturns⟩

/-- Settles O42: by induction on the number of steps; each keeps the invariant or is the last one, waiting. -/
theorem sequencerNeverReadsOutsideTheBuffer : Obligations.SequencerNeverReadsOutsideTheBuffer := by
  intro s hs n
  induction n generalizing s with
  | zero => simp [run]
  | succ n ih =>
    rcases hs.step_completes_or_waits with ⟨t, ht⟩ | hwait
    · rw [run_succ n s t ht]
      exact ih t (everyStepKeepsTheInvariant s t hs ht)
    · simp [run, hwait]

/-- A legal phase code other than IDLE selects a micro-operation (R84). -/
theorem State.Inv.selects {s : State} (hs : s.Inv) (hp : s.phase ≠ phaseIdle) :
    ∃ i, decodeSelector s.selector = .ok i := by
  cases hd : decodeSelector s.selector with
  | ok i => exact ⟨i, rfl⟩
  | error e =>
    have hlegal := hs.phaseLegal
    rcases decodeSelector_error _ _ _ hd with h | h
    · exact absurd h hp
    · omega

/-- A micro-operation leaves its phase, or BLOCK counts its group (R26, R27). -/
theorem micro_progress (s t : State) (i : Instr) (hi : decodeSelector s.selector = .ok i) (h : exec i s = .next t) :
    t.phase ≠ s.phase ∨ t.cnt = s.cnt + 1#32 := by
  rcases micro_effect s t i hi h with ⟨hp, a, b, rfl⟩ | ⟨_, a, b, rfl⟩ | ⟨hp, a, b, rfl⟩ | ⟨hp, a, b, rfl⟩
  · left
    rw [hp]
    simp only
    split <;> decide
  · exact .inr rfl
  · simp [hp]
  · simp [hp]

/-- Settles O43: the invariant makes `PHASE` select a micro-operation, and it completes. -/
theorem runningSequencerAlwaysHasItsStep : Obligations.RunningSequencerAlwaysHasItsStep := by
  intro s rest hs hp hseq
  obtain ⟨i, hi⟩ := hs.selects hp
  obtain ⟨us, t, ht, he⟩ := hs.step_selected_completes hi (hseq.imp_right fun h => ⟨rest, h⟩)
  exact ⟨t, ht, micro_progress { s with turns := us } t i hi he⟩

end Sys2Proof.Machine

namespace Sys2Proof.Machine

/-! ### Legality of a transaction -/

theorem legalCommand_iff (w : Word) :
    legalCommand w = true ↔ w = 0x00000001#32 ∨ w = 0x00000002#32 ∨ w = 0x00000005#32 ∨ w = 0x00000006#32 := by
  constructor
  · intro h
    unfold legalCommand at h
    split at h
    · next i hi => exact decodeCommand_four w i hi
    · cases h
  · rintro (rfl | rfl | rfl | rfl) <;> rfl

/-- The four writable registers are the aligned ones that are not read only (R39, R163). -/
theorem not_readOnlyReg_iff (off : Nat) (haligned : off % 4 = 0) (hend : off + 4 ≤ 0x20) :
    readOnlyReg off = false ↔ off = 0x00 ∨ off = 0x08 ∨ off = 0x0C ∨ off = 0x10 := by
  simp only [readOnlyReg, Bool.or_eq_false_iff, beq_eq_false_iff_ne]
  omega

/-- The clauses (d) to (f) of R54, as the port checks them. -/
theorem writeRefusal_eq_none_iff (x : Transaction) (v : Word) (s : State) : writeRefusal x v s = none ↔
    (x.space = .reg → readOnlyReg x.off = false) ∧ s.phase = phaseIdle ∧
    (x.space = .reg → x.off = 0x00 → legalCommand v = true) := by
  rw [← State.busy_eq_false_iff]
  unfold writeRefusal
  split_ifs with hro hbusy hcmd
  · simp [hro.1, hro.2]
  · simp [hbusy]
  · simp [hcmd.1, hcmd.2.1, hcmd.2.2]
  · refine ⟨fun _ => ⟨fun h => ?_, by simpa using hbusy, fun h h0 => ?_⟩, fun _ => rfl⟩
    · simpa [h] using hro
    · simpa [h, h0] using hcmd

/-- The clauses of R54 that concern reads and writes alike: size, alignment and end of the space (a to c). -/
def WellPlaced (x : Transaction) : Prop :=
  legalSize x.space x.n = true ∧ x.off % x.n = 0 ∧ x.off + x.n ≤ spaceEnd x.space

theorem wellPlaced_iff (x : Transaction) : WellPlaced x ↔
    (x.space = .reg → x.n = 4) ∧ (x.space = .data → x.n = 1 ∨ x.n = 2 ∨ x.n = 4) ∧ x.off % x.n = 0 ∧
    (x.space = .reg → x.off + 4 ≤ 0x20) ∧ (x.space = .data → x.off + x.n ≤ bufBytes) := by
  obtain ⟨sp, k, off, n⟩ := x
  cases sp with
  | reg =>
    simp only [WellPlaced, legalSize, spaceEnd, beq_iff_eq, true_implies, reduceCtorEq, false_implies, true_and]
    refine and_congr_right fun hn => ?_
    rw [hn]
    tauto
  | data =>
    simp only [WellPlaced, legalSize, spaceEnd, Bool.or_eq_true, beq_iff_eq, or_assoc, true_implies,
      reduceCtorEq, false_implies, true_and]

/-- The clauses (d) to (f) of R54, as the spec words them. -/
theorem legal_write_iff (x : Transaction) (v : Word) (s : State) (hplaced : WellPlaced x) :
    writeRefusal x v s = none ↔
      (x.space = .reg → x.off = 0x00 ∨ x.off = 0x08 ∨ x.off = 0x0C ∨ x.off = 0x10) ∧ s.phase = phaseIdle ∧
      (x.space = .reg → x.off = 0x00 →
        v = 0x00000001#32 ∨ v = 0x00000002#32 ∨ v = 0x00000005#32 ∨ v = 0x00000006#32) := by
  obtain ⟨hn, _, haligned, hend, _⟩ := (wellPlaced_iff x).mp hplaced
  rw [writeRefusal_eq_none_iff, legalCommand_iff]
  refine and_congr_left fun _ => imp_congr_right fun hreg => ?_
  rw [hn hreg] at haligned
  exact not_readOnlyReg_iff x.off haligned (hend hreg)

theorem legalTransaction_iff (x : Transaction) (s : State) :
    LegalTransaction x s ↔ WellPlaced x ∧ ∀ v, x.kind = .write v → writeRefusal x v s = none := by
  have hwrite : WellPlaced x → ((∀ v, x.kind = .write v → writeRefusal x v s = none) ↔ _) := fun hplaced =>
    forall_congr' fun v => imp_congr_right fun _ => legal_write_iff x v s hplaced
  rw [and_congr_right hwrite, wellPlaced_iff]
  simp only [LegalTransaction, and_assoc]

theorem refusalOf_placed_read (x : Transaction) (s : State) (h : WellPlaced x) (hk : x.kind = .read) :
    refusalOf x s = none := by
  obtain ⟨hsize, haligned, hend⟩ := h
  simp [refusalOf, hsize, haligned, Nat.not_lt.mpr hend, hk]

theorem refusalOf_placed_write (x : Transaction) (v : Word) (s : State) (h : WellPlaced x) (hk : x.kind = .write v) :
    refusalOf x s = writeRefusal x v s := by
  obtain ⟨hsize, haligned, hend⟩ := h
  simp [refusalOf, hsize, haligned, Nat.not_lt.mpr hend, hk]

theorem refusalOf_not_placed (x : Transaction) (s : State) (h : ¬ WellPlaced x) : refusalOf x s ≠ none := by
  unfold refusalOf
  split_ifs with hsize haligned hend
  · simp
  · simp
  · simp
  · exact absurd ⟨by simpa using hsize, by simpa using haligned, Nat.not_lt.mp hend⟩ h

/-- A transaction is refused exactly when it is not legal (R54). -/
theorem refusalOf_eq_none_iff (x : Transaction) (s : State) : refusalOf x s = none ↔ LegalTransaction x s := by
  rw [legalTransaction_iff]
  by_cases hplaced : WellPlaced x
  · cases hk : x.kind with
    | read => simp [hplaced, refusalOf_placed_read x s hplaced hk]
    | write v => simp [hplaced, refusalOf_placed_write x v s hplaced hk]
  · simp [hplaced, refusalOf_not_placed x s hplaced]

/-! ### Steps of the host port, by legality -/

theorem step_legal_read (s : State) (x : Transaction) (rest : List Turn) (hturns : s.turns = .host x :: rest)
    (hlegal : LegalTransaction x s) (hk : x.kind = .read) : step s = .next { s with
      turns := rest, reply := some { resp := .okay, rdata := some (readValue x s), reason := none } } := by
  have hvalue : readValue x { s with turns := rest } = readValue x s :=
    State.VisibleAlike.readValue ⟨rfl, rfl, rfl, rfl, rfl, rfl, rfl, Iff.rfl, rfl⟩ x
  rw [step_host s x rest hturns, ← hvalue]
  exact hostTransaction_read x _ ((refusalOf_eq_none_iff x _).mpr hlegal) hk

theorem step_legal_write (s : State) (x : Transaction) (v : Word) (rest : List Turn)
    (hturns : s.turns = .host x :: rest) (hlegal : LegalTransaction x s) (hk : x.kind = .write v) :
    step s = legalWrite x v { s with turns := rest } := by
  rw [step_host s x rest hturns]
  exact hostTransaction_write x _ v ((refusalOf_eq_none_iff x _).mpr hlegal) hk

theorem refusedData_eq (k : Kind) : refusedData k = if k = .read then some 0#32 else none := by
  cases k <;> simp [refusedData]

/-- A refused transaction costs its turn and leaves its reply, with the reason `refusalOf` names (R54, R163). -/
theorem step_refused (s : State) (x : Transaction) (rest : List Turn) (r : Reason)
    (hturns : s.turns = .host x :: rest) (hr : refusalOf x s = some r) : step s = .next { s with
      turns := rest
      reply := some { resp := .error, rdata := if x.kind = .read then some 0#32 else none, reason := some r } } := by
  rw [step_host s x rest hturns, ← refusedData_eq]
  exact hostTransaction_refused x _ r hr

theorem step_refused_write (s : State) (x : Transaction) (v : Word) (rest : List Turn) (r : Reason)
    (hturns : s.turns = .host x :: rest) (hk : x.kind = .write v) (hr : refusalOf x s = some r) :
    step s = .next { s with turns := rest, reply := some { resp := .error, rdata := none, reason := some r } } := by
  rw [step_refused s x rest r hturns hr, hk, if_neg Kind.noConfusion]

/-- The four words of clause (f) are those of the four commands (R54, R82). -/
theorem command_word (v : Word)
    (h : v = 0x00000001#32 ∨ v = 0x00000002#32 ∨ v = 0x00000005#32 ∨ v = 0x00000006#32) :
    ∃ u d, v = commandCode u d := by
  rcases h with rfl | rfl | rfl | rfl
  · exact ⟨.u32, false, rfl⟩
  · exact ⟨.u64, false, rfl⟩
  · exact ⟨.u32, true, rfl⟩
  · exact ⟨.u64, true, rfl⟩

theorem step_data_write (s : State) (x : Transaction) (v : Word) (rest : List Turn)
    (hturns : s.turns = .host x :: rest) (hlegal : LegalTransaction x s) (hk : x.kind = .write v)
    (hsp : x.space = .data) :
    step s = .next (({ s with turns := rest } : State).dataWrite x.off x.n v).okayWrite := by
  rw [step_legal_write s x v rest hturns hlegal hk]
  simp only [legalWrite, hsp]

theorem step_operand_write (s : State) (x : Transaction) (v : Word) (rest : List Turn)
    (hturns : s.turns = .host x :: rest) (hlegal : LegalTransaction x s) (hk : x.kind = .write v)
    (hsp : x.space = .reg) (hoff : x.off ≠ 0x00) :
    step s = .next (({ s with turns := rest } : State).regWrite x.off v).okayWrite := by
  rw [step_legal_write s x v rest hturns hlegal hk]
  simp only [legalWrite, hsp, if_neg hoff]

/-- A legal write is answered `OKAY`: of the buffer, of an operand register, or of a command at `CMD` (R54). -/
theorem step_legal_write_okay (s : State) (x : Transaction) (v : Word) (rest : List Turn)
    (hturns : s.turns = .host x :: rest) (hlegal : LegalTransaction x s) (hk : x.kind = .write v) :
    ∃ t, step s = .next t ∧ t.reply = some { resp := .okay, rdata := none, reason := none } := by
  cases hsp : x.space with
  | data => exact ⟨_, step_data_write s x v rest hturns hlegal hk hsp, rfl⟩
  | reg =>
    by_cases hoff : x.off = 0x00
    · obtain ⟨hn, _, _, _, _, hwrite⟩ := hlegal
      obtain ⟨_, hp, hword⟩ := hwrite v hk
      obtain ⟨u, d, rfl⟩ := command_word v (hword hsp hoff)
      have hx : x = { space := .reg, kind := .write (commandCode u d), off := 0x00, n := 4 } := by
        rw [← hsp, ← hk, ← hoff, ← hn hsp]
      rw [hx] at hturns
      exact ⟨_, step_command s u d rest hturns hp, by rw [State.accept_eq]⟩
    · exact ⟨_, step_operand_write s x v rest hturns hlegal hk hsp hoff, rfl⟩

/-- Settles O12: legal means that `refusalOf` names no reason; then a read returns its value and a write is done. -/
theorem legalIsOkayAndIllegalChangesNothing : Obligations.LegalIsOkayAndIllegalChangesNothing := by
  intro s x rest hturns
  refine ⟨fun hlegal => ?_, fun hillegal => ?_⟩
  · cases hk : x.kind with
    | read => exact ⟨_, _, step_legal_read s x rest hturns hlegal hk, rfl, rfl, by simp⟩
    | write v =>
      obtain ⟨t, ht, hreply⟩ := step_legal_write_okay s x v rest hturns hlegal hk
      exact ⟨t, _, ht, hreply, rfl, by simp⟩
  · rw [← refusalOf_eq_none_iff] at hillegal
    obtain ⟨r, hr⟩ := Option.ne_none_iff_exists'.mp hillegal
    exact ⟨r, step_refused s x rest r hturns hr⟩

/-- Settles O21: a read is refused or returns its value, and either leaves a reply only. -/
theorem readsHaveNoSideEffect : Obligations.ReadsHaveNoSideEffect := by
  intro s x rest hturns hk
  cases hr : refusalOf x s with
  | some r => exact ⟨_, step_refused s x rest r hturns hr⟩
  | none => exact ⟨_, step_legal_read s x rest hturns ((refusalOf_eq_none_iff x s).mp hr) hk⟩

/-! ### Writes while a hash runs -/

/-- While a hash runs a write of a writable place is refused with `BUSY`, at `CMD` whatever its word (R68, R164). -/
theorem refusalOf_busy (x : Transaction) (v : Word) (s : State) (hplaced : WellPlaced x) (hk : x.kind = .write v)
    (hwritable : x.space = .reg → readOnlyReg x.off = false) (hp : s.phase ≠ phaseIdle) :
    refusalOf x s = some .busy := by
  have hbusy := (State.busy_eq_true_iff s).mpr hp
  have hnot : ¬ (x.space = .reg ∧ readOnlyReg x.off = true) := fun ⟨hreg, hro⟩ => by simp [hwritable hreg] at hro
  rw [refusalOf_placed_write x v s hplaced hk, writeRefusal, if_neg hnot, if_pos hbusy]

/-- Settles O20: a write in a busy block is not legal; with `PHASE` the only thing wrong the reason is `BUSY`. -/
theorem writesWhileBusyAreRefused : Obligations.WritesWhileBusyAreRefused := by
  intro s x v rest hp hturns hk
  constructor
  · have hillegal : refusalOf x s ≠ none := by
      rw [ne_eq, refusalOf_eq_none_iff]
      rintro ⟨_, _, _, _, _, hwrite⟩
      obtain ⟨_, hidle, _⟩ := hwrite v hk
      exact hp hidle
    obtain ⟨r, hr⟩ := Option.ne_none_iff_exists'.mp hillegal
    exact ⟨r, step_refused_write s x v rest r hturns hk hr⟩
  · intro hlegal
    obtain ⟨hplaced, hwrite⟩ := (legalTransaction_iff x _).mp hlegal
    obtain ⟨hwritable, _⟩ := (writeRefusal_eq_none_iff x v _).mp (hwrite v hk)
    exact step_refused_write s x v rest .busy hturns hk (refusalOf_busy x v s hplaced hk hwritable hp)

/-- Settles O25: the meaning of each command looks at `PHASE` first. -/
theorem commandWhileBusyIsRefused : Obligations.CommandWhileBusyIsRefused := by
  intro s u d hp
  exact (exec_commandInstr u d s).trans (execCommand_busy u d s hp)

/-! ### The REG space -/

theorem wellPlaced_reg (k : Kind) (off : Nat) (haligned : off % 4 = 0) (hend : off + 4 ≤ 0x20) :
    WellPlaced { space := .reg, kind := k, off := off, n := 4 } :=
  ⟨rfl, haligned, hend⟩

theorem legal_reg_read (s : State) (off : Nat) (haligned : off % 4 = 0) (hend : off + 4 ≤ 0x20) :
    LegalTransaction { space := .reg, kind := .read, off := off, n := 4 } s :=
  (legalTransaction_iff _ s).mpr ⟨wellPlaced_reg _ off haligned hend, fun _ hk => Kind.noConfusion hk⟩

theorem toNat_capValue : capValue.toNat = bufBytes := by
  have := bufBytes_le
  simp only [capValue, BitVec.toNat_ofNat]
  omega

/-- Settles O14: each mapped offset is legal to read, and `regRead` has a row for it. -/
theorem registerReadsReturnTheirValue : Obligations.RegisterReadsReturnTheirValue := by
  intro s off rest hturns v hrow
  have hlegal : LegalTransaction { space := .reg, kind := .read, off := off, n := 4 } s :=
    legal_reg_read s off (by omega) (by omega)
  have hvalue : s.regRead off = v := by
    rcases hrow with ⟨rfl, rfl⟩ | ⟨rfl, rfl⟩ | ⟨rfl, rfl⟩ | ⟨rfl, rfl⟩ | ⟨rfl, rfl⟩ | ⟨rfl, rfl⟩ | ⟨rfl, rfl⟩ | ⟨rfl, hv⟩
    case inr.inr.inr.inr.inr.inr.inr => exact BitVec.eq_of_toNat_eq (toNat_capValue.trans hv.symm)
    all_goals rfl
  rw [step_legal_read s _ rest hturns hlegal rfl, ← hvalue]
  rfl

theorem legal_operand_write (s : State) (off : Nat) (v : Word) (hp : s.phase = phaseIdle)
    (hoff : off = 0x08 ∨ off = 0x0C ∨ off = 0x10) :
    LegalTransaction { space := .reg, kind := .write v, off := off, n := 4 } s := by
  have hplaced := wellPlaced_reg (.write v) off (by omega) (by omega)
  refine (legalTransaction_iff _ s).mpr ⟨hplaced, fun w _ => (legal_write_iff _ w s hplaced).mpr ?_⟩
  exact ⟨fun _ => .inr hoff, hp, fun _ h0 => by simp only at h0; omega⟩

/-- Settles O17: an operand's offset reaches its register only, a command word at `CMD` is accepted, and in a busy block
the four writable offsets are refused alike. -/
theorem registerWritesChangeOneRegister : Obligations.RegisterWritesChangeOneRegister := by
  intro s off v rest hturns
  have operand (hp : s.phase = phaseIdle) (hoff : off = 0x08 ∨ off = 0x0C ∨ off = 0x10) :=
    step_operand_write s _ v rest hturns (legal_operand_write s off v hp hoff) rfl rfl (by simp only; omega)
  refine ⟨fun hp hoff => ?_, fun hp hoff => ?_, fun hp hoff => ?_, fun hp hoff => ?_, fun hp hoff u d hv => ?_⟩
  · have hplaced := wellPlaced_reg (.write v) off (by omega) (by omega)
    have hwritable := (not_readOnlyReg_iff off (by omega) (by omega)).mpr hoff
    exact step_refused_write s _ v rest .busy hturns rfl (refusalOf_busy _ v s hplaced rfl (fun _ => hwritable) hp)
  · subst hoff
    exact operand hp (by decide)
  · subst hoff
    exact operand hp (by decide)
  · subst hoff
    exact operand hp (by decide)
  · subst hoff hv
    exact step_command s u d rest hturns hp

/-! ### The DATA space -/

theorem wellPlaced_data (k : Kind) (off n : Nat) (hn : n = 1 ∨ n = 2 ∨ n = 4) (haligned : off % n = 0)
    (hend : off + n ≤ bufBytes) : WellPlaced { space := .data, kind := k, off := off, n := n } :=
  (wellPlaced_iff _).mpr
    ⟨fun h => Space.noConfusion h, fun _ => hn, haligned, fun h => Space.noConfusion h, fun _ => hend⟩

theorem legal_data (s : State) (k : Kind) (off n : Nat) (hn : n = 1 ∨ n = 2 ∨ n = 4) (haligned : off % n = 0)
    (hend : off + n ≤ bufBytes) (hp : ∀ v, k = .write v → s.phase = phaseIdle) :
    LegalTransaction { space := .data, kind := k, off := off, n := n } s :=
  (legalTransaction_iff _ s).mpr ⟨wellPlaced_data k off n hn haligned hend, fun v hk =>
    (writeRefusal_eq_none_iff _ v s).mpr ⟨fun h => Space.noConfusion h, hp v hk, fun h => Space.noConfusion h⟩⟩

/-- Settles O53: the model's recursion on the bytes is the sum of R52. -/
theorem memoryReadIsLittleEndian : Obligations.MemoryReadIsLittleEndian :=
  fun s off n => leNat_eq_sum s.dataByte n off

/-- The data word of a host read holds the whole sum: at most 4 bytes are read (R58). -/
theorem toNat_dataRead_word (s : State) (off n : Nat) (hn : n ≤ 4) :
    (BitVec.ofNat 32 (s.dataRead off n)).toNat = s.dataRead off n := by
  have hlt : leNat s.dataByte off n < 256 ^ 4 :=
    Nat.lt_of_lt_of_le (leNat_lt s.dataByte n off) (Nat.pow_le_pow_right (by decide) hn)
  rw [BitVec.toNat_ofNat]
  exact Nat.mod_eq_of_lt hlt

theorem step_data_read (s : State) (off n : Nat) (rest : List Turn)
    (hturns : s.turns = .host { space := .data, kind := .read, off := off, n := n } :: rest)
    (hn : n = 1 ∨ n = 2 ∨ n = 4) (haligned : off % n = 0) (hend : off + n ≤ bufBytes) :
    step s = .next { s with
      turns := rest
      reply := some { resp := .okay, rdata := some (BitVec.ofNat 32 (s.dataRead off n)), reason := none } } :=
  step_legal_read s _ rest hturns (legal_data s .read off n hn haligned hend fun _ hk => Kind.noConfusion hk) rfl

/-- Settles O16: a legal read answers `dataRead`, which is the sum. -/
theorem dataReadsAreLittleEndianSums : Obligations.DataReadsAreLittleEndianSums := by
  intro s off n rest hturns hn haligned hend
  refine ⟨BitVec.ofNat 32 (s.dataRead off n), ?_, step_data_read s off n rest hturns hn haligned hend⟩
  rw [toNat_dataRead_word s off n (by omega), memoryReadIsLittleEndian]

/-- A legal write of the idle block's buffer (R56). -/
theorem step_idle_data_write (s : State) (off n : Nat) (v : Word) (rest : List Turn)
    (hturns : s.turns = .host { space := .data, kind := .write v, off := off, n := n } :: rest)
    (hp : s.phase = phaseIdle) (hn : n = 1 ∨ n = 2 ∨ n = 4) (haligned : off % n = 0) (hend : off + n ≤ bufBytes) :
    step s = .next (({ s with turns := rest } : State).dataWrite off n v).okayWrite :=
  step_data_write s _ v rest hturns (legal_data s (.write v) off n hn haligned hend fun _ _ => hp) rfl rfl

/-- Settles O18: the new buffer is `putBytes` of the old one, which reads as the value inside and as before outside. -/
theorem dataWritesStoreTheirBytesOnly : Obligations.DataWritesStoreTheirBytesOnly := by
  intro s off n v rest hturns hn haligned hend
  refine ⟨fun hp => ⟨Memory.putBytes s.data off n v, ?_, ?_, ?_⟩, fun hp => ?_⟩
  · exact step_idle_data_write s off n v rest hturns hp hn haligned hend
  · exact fun j hj => State.dataByte_dataWrite_same s off n v j hj
  · exact fun a ha => State.dataByte_dataWrite_other s off n v a ha
  · have hplaced := wellPlaced_data (.write v) off n hn haligned hend
    exact step_refused_write s _ v rest .busy hturns rfl
      (refusalOf_busy _ v s hplaced rfl (fun h => Space.noConfusion h) hp)

/-! ### Accesses of different sizes -/

/-- The cells at `off .. off+3` hold the bytes of `v`, lowest first (R53). -/
def State.HoldsWord (s : State) (off : Nat) (v : Word) : Prop :=
  ∀ j, j < 4 → s.dataByte (off + j) = v.extractLsb' (8 * j) 8

/-- A word is its four bytes, highest first. -/
theorem word_eq_append (v : Word) :
    v.extractLsb' 24 8 ++ v.extractLsb' 16 8 ++ v.extractLsb' 8 8 ++ v.extractLsb' 0 8 = v := by
  have join (i n : Nat) : v.extractLsb' (i + 8) n ++ v.extractLsb' i 8 = v.extractLsb' i (n + 8) :=
    BitVec.extractLsb'_append_extractLsb'_eq_extractLsb' rfl
  rw [join 16 8, join 8 16, join 0 24]
  exact BitVec.extractLsb'_eq_self

theorem State.HoldsWord.dataRead {s : State} {off : Nat} {v : Word} (h : s.HoldsWord off v) :
    BitVec.ofNat 32 (s.dataRead off 4) = v := by
  rw [dataRead32, group32_eq_append, h 3 (by decide), h 2 (by decide), h 1 (by decide)]
  have h0 : s.dataByte off = v.extractLsb' 0 8 := h 0 (by decide)
  rw [h0]
  exact word_eq_append v

/-- A word written is held by its cells (R53, R56). -/
theorem State.holdsWord_dataWrite (s : State) (off : Nat) (v : Word) : (s.dataWrite off 4 v).HoldsWord off v :=
  fun j hj => State.dataByte_dataWrite_same s off 4 v j hj

/-- After a run of `n` steps, a read of the buffer is the next step. -/
theorem run_then_read (s t : State) (m off n : Nat) (rest : List Turn) (hrun : run m s = .next t)
    (hturns : t.turns = .host { space := .data, kind := .read, off := off, n := n } :: rest)
    (hn : n = 1 ∨ n = 2 ∨ n = 4) (haligned : off % n = 0) (hend : off + n ≤ bufBytes) :
    ∃ u, run (m + 1) s = .next u ∧
      u.reply = some { resp := .okay, rdata := some (BitVec.ofNat 32 (t.dataRead off n)), reason := none } := by
  have hread := step_data_read t off n rest hturns hn haligned hend
  exact ⟨_, (run_add m 1 s t hrun).trans (run_succ 0 t _ hread), rfl⟩

theorem step_byte_write (s : State) (off : Nat) (b : Byte) (rest : List Turn)
    (hturns : s.turns = stmtTurn (.wb off b) :: rest) (hp : s.phase = phaseIdle) (hend : off + 1 ≤ bufBytes) :
    ∃ t, step s = .next t ∧ t.turns = rest ∧ t.phase = phaseIdle ∧ t.dataByte off = b ∧
      ∀ a, a < off → t.dataByte a = s.dataByte a := by
  refine ⟨_, step_idle_data_write s off 1 (b.setWidth 32) rest hturns hp (.inl rfl) (Nat.mod_one off) hend, rfl, hp, ?_,
    fun a ha => State.dataByte_dataWrite_other { s with turns := rest } off 1 _ a (.inl ha)⟩
  calc
    _ = (b.setWidth 32).extractLsb' 0 8 :=
      State.dataByte_dataWrite_same { s with turns := rest } off 1 (b.setWidth 32) 0 Nat.one_pos
    _ = b := by
      rw [← BitVec.setWidth_eq_extractLsb' (by decide), BitVec.setWidth_setWidth_of_le b (by decide), BitVec.setWidth_eq]

/-- `load` stores its bytes in consecutive cells of the idle block (R88). -/
theorem run_load (bs : List Byte) : ∀ (s : State) (off : Nat) (rest : List Turn),
    s.phase = phaseIdle → off + bs.length ≤ bufBytes → s.turns = (stmtLoad off bs).map stmtTurn ++ rest →
    ∃ t, run bs.length s = .next t ∧ t.turns = rest ∧ (∀ j (h : j < bs.length), t.dataByte (off + j) = bs[j]) ∧
      ∀ a, a < off → t.dataByte a = s.dataByte a := by
  induction bs with
  | nil =>
    intro s off rest _ _ hturns
    exact ⟨s, rfl, hturns, by simp, fun _ _ => rfl⟩
  | cons b bs ih =>
    intro s off rest hp hend hturns
    rw [List.length_cons] at hend
    obtain ⟨t, hstep, hturns', hp', hbyte, hbelow⟩ := step_byte_write s off b _ hturns hp (by omega)
    obtain ⟨u, hrun, hrest, hcells, hbelow'⟩ := ih t (off + 1) rest hp' (by omega) hturns'
    refine ⟨u, (run_succ _ s t hstep).trans hrun, hrest, fun j hj => ?_, fun a ha => ?_⟩
    · cases j with
      | zero => exact (hbelow' off (Nat.lt_succ_self off)).trans hbyte
      | succ j =>
        rw [← Nat.add_assoc, Nat.add_right_comm]
        exact hcells j (Nat.lt_of_succ_lt_succ hj)
    · exact (hbelow' a (Nat.lt_succ_of_lt ha)).trans (hbelow a ha)

/-- Settles O19: a word write and four byte writes both leave the cells holding the word, and every read is of the
cells. -/
theorem mixedWidthAccessesSeeTheSameBytes : Obligations.MixedWidthAccessesSeeTheSameBytes := by
  intro s off v rest hp haligned hend
  have word_write (us : List Turn) (hturns : s.turns = stmtTurn (.ww off v) :: us) :
      ∃ t, run 1 s = .next t ∧ t.turns = us ∧ t.HoldsWord off v :=
    ⟨_, run_succ 0 s _ (step_idle_data_write s off 4 v us hturns hp (by decide) haligned hend), rfl,
      State.holdsWord_dataWrite _ off v⟩
  refine ⟨fun hturns => ?_, fun j hj hturns => ?_, fun hturns => ?_⟩
  · obtain ⟨t, hrun, hus, hword⟩ := word_write _ hturns
    rw [← hword.dataRead]
    exact run_then_read s t 1 off 4 rest hrun hus (by decide) haligned hend
  · obtain ⟨t, hrun, hus, hword⟩ := word_write _ hturns
    rw [← hword j hj, ← ofNat_leNat_one]
    exact run_then_read s t 1 (off + j) 1 rest hrun hus (.inl rfl) (Nat.mod_one _) (by omega)
  · obtain ⟨t, hrun, hus, hcells, _⟩ := run_load _ s off _ hp (by exact hend) hturns
    have hword : t.HoldsWord off v := fun j hj => by
      rw [hcells j hj]
      obtain rfl | rfl | rfl | rfl : j = 0 ∨ j = 1 ∨ j = 2 ∨ j = 3 := by omega
      all_goals rfl
    rw [← hword.dataRead]
    exact run_then_read s t 4 off 4 rest hrun hus (by decide) haligned hend

/-! ### What a hash depends on -/

/-- The tail of U32 is a function of its `rem` bytes (R69, R124). -/
theorem tail32_congr (d e : Nat → Byte) (t rem : Nat) (h : Word) (hr : rem ≤ 3)
    (hde : ∀ a, t ≤ a → a < t + rem → d a = e a) :
    tail32 h rem (d t) (d (t + 1)) (d (t + 2)) = tail32 h rem (e t) (e (t + 1)) (e (t + 2)) := by
  rw [tail32_eq d t rem h hr, tail32_eq e t rem h hr, leNat_congr d e rem t hde]

/-- The tail of U64 is a function of its `rem` bytes (R69, R144). -/
theorem tail64_congr (d e : Nat → Byte) (t rem : Nat) (h : DWord) (hr : rem ≤ 7)
    (hde : ∀ a, t ≤ a → a < t + rem → d a = e a) :
    tail64 h rem (d t) (d (t + 1)) (d (t + 2)) (d (t + 3)) (d (t + 4)) (d (t + 5)) (d (t + 6)) =
      tail64 h rem (e t) (e (t + 1)) (e (t + 2)) (e (t + 3)) (e (t + 4)) (e (t + 5)) (e (t + 6)) := by
  rw [tail64_eq d t rem h hr, tail64_eq e t rem h hr, leNat_congr d e rem t hde]

theorem mh32_congr (d e : Nat → Byte) (l s : Word) (h : ∀ a, a < l.toNat → d a = e a) : mh32 d l s = mh32 e l s := by
  have hgroups := toNat_nblk32 l
  have htail := tailBase32_add_rem32 l
  rw [mh32, mh32, blocks32_congr d e _ _ fun a ha => h a (by omega),
    tail32_congr d e _ _ _ (rem32_le l) fun a _ ha => h a (by omega)]

theorem mh64_congr (d e : Nat → Byte) (l s : Word) (h : ∀ a, a < l.toNat → d a = e a) : mh64 d l s = mh64 e l s := by
  have hgroups := toNat_nblk64 l
  have htail := tailBase64_add_rem64 l
  rw [mh64, mh64, blocks64_congr d e _ _ fun a ha => h a (by omega),
    tail64_congr d e _ _ _ (rem64_le l) fun a _ ha => h a (by omega)]

/-- Settles O54: the groups and the tail lie below the length, and each depends on its own bytes. -/
theorem bytesBeyondTheLengthAreIgnored : Obligations.BytesBeyondTheLengthAreIgnored :=
  fun d e l s h => ⟨mh32_congr d e l s h, mh64_congr d e l s h⟩

end Sys2Proof.Machine

namespace Sys2Proof.Machine

/-! ### Codes and their instructions -/

/-- The code of every instruction decodes to it: the rows of R82 and R84, read forwards. -/
theorem decode_encode (i : Instr) : decode (encode i) = .ok i := by
  cases i <;> rfl

/-- A selector is its `VAR` bit and its `PHASE` field (R84). -/
theorem selectorOf_fields (sel : BitVec 4) : selectorOf (sel.getLsbD 3) (sel.extractLsb' 0 3) = sel := by
  revert sel
  decide

/-- The command words are the encodings of the commands (R80, R82). -/
theorem encode_commandInstr (u : HashUnit) (d : Bool) : encode (commandInstr u d) = .cmdw (commandCode u d) := by
  cases u <;> cases d <;> rfl

theorem encode_of_decodeCommand (w : Word) (i : Instr) (h : decodeCommand w = .ok i) : encode i = .cmdw w := by
  obtain ⟨u, d, rfl, rfl⟩ := decodeCommand_ok w i h
  exact encode_commandInstr u d

theorem encode_of_decodeSelector (sel : BitVec 4) (i : Instr) (h : decodeSelector sel = .ok i) :
    encode i = .ustep sel := by
  rw [← selectorOf_fields sel] at h ⊢
  generalize sel.getLsbD 3 = v at h ⊢
  rcases decodeSelector_ok _ _ _ h with ⟨hp, rfl⟩ | ⟨hp, rfl⟩ | ⟨hp, rfl⟩ | ⟨hp, rfl⟩
  all_goals
    rw [hp]
    cases v <;> rfl

/-- Settles O3: the decoder of either form accepts only encodings, and it accepts each. -/
theorem decodeIsInverseOfEncode : Obligations.DecodeIsInverseOfEncode := by
  intro c i
  constructor
  · intro h
    cases c with
    | cmdw w => exact (encode_of_decodeCommand w i h).symm
    | ustep sel => exact (encode_of_decodeSelector sel i h).symm
  · rintro rfl
    exact decode_encode i

/-! ### Reserved command words -/

/-- The decoder of commands has one reason to reject (R83). -/
theorem decodeCommand_error (w : Word) (e : Rejection) (h : decodeCommand w = .error e) : e = .reservedCommand := by
  unfold decodeCommand at h
  dsimp only at h
  split_ifs at h <;> exact (Except.error.inj h).symm

/-- A word other than the four is no legal command (R83). -/
theorem legalCommand_reserved (w : Word) (h1 : w ≠ 0x00000001#32) (h2 : w ≠ 0x00000002#32) (h5 : w ≠ 0x00000005#32)
    (h6 : w ≠ 0x00000006#32) : legalCommand w = false := by
  rw [← Bool.not_eq_true, legalCommand_iff]
  simp only [h1, h2, h5, h6, or_self, not_false_eq_true]

/-- Settles O4: the four are encodings; a word that decodes is one of them, and the decoder's only rejection is
`reservedCommand`. -/
theorem fourCommandWordsAndNoOther : Obligations.FourCommandWordsAndNoOther := by
  refine ⟨decodeCommand_commandCode .u32 false, decodeCommand_commandCode .u64 false,
    decodeCommand_commandCode .u32 true, decodeCommand_commandCode .u64 true, fun w h1 h2 h5 h6 => ?_⟩
  cases hd : decodeCommand w with
  | ok i =>
    have hfour := decodeCommand_four w i hd
    simp only [h1, h2, h5, h6, or_self] at hfour
  | error e => rw [decodeCommand_error w e hd]

/-- At `CMD` the port looks at `PHASE` first and at the word second (R163, R164). -/
theorem refusalOf_reserved_command (w : Word) (s : State) (hw : legalCommand w = false) :
    refusalOf { space := .reg, kind := .write w, off := 0x00, n := 4 } s =
      some (if s.phase = phaseIdle then .illegalCmd else .busy) := by
  by_cases hp : s.phase = phaseIdle
  · rw [refusalOf_placed_write _ w s (wellPlaced_reg _ _ rfl (by decide)) rfl, if_pos hp]
    simp [writeRefusal, readOnlyReg, (State.busy_eq_false_iff s).mpr hp, hw]
  · rw [refusalOf_busy _ w s (wellPlaced_reg _ _ rfl (by decide)) rfl (fun _ => rfl) hp, if_neg hp]

/-- Settles O5: the port refuses a reserved word, and a refused write leaves its reply only. -/
theorem reservedCommandWordIsRefused : Obligations.ReservedCommandWordIsRefused := by
  intro s w rest hturns h1 h2 h5 h6
  exact step_refused_write s _ w rest _ hturns rfl
    (refusalOf_reserved_command w s (legalCommand_reserved w h1 h2 h5 h6))

/-- Settles O6: six codes are encodings; the other three are a reserved word, the selector of IDLE and one of phase 5. -/
theorem codesWrittenOutDecode : Obligations.CodesWrittenOutDecode :=
  ⟨decode_encode .hash32, decode_encode .hash64d, rfl, decode_encode .init32, decode_encode .final32,
    decode_encode .block64, decode_encode .tail64, rfl, rfl⟩

/-! ### The step of the sequencer, by what its selector decodes to -/

/-- The state the sequencer acts on: no turn is offered, or its own turn is taken off the list. -/
def SequencerActsOn (s s' : State) : Prop :=
  (s.turns = [] ∧ s' = s) ∨ ∃ rest, s.turns = .sequencer :: rest ∧ s' = { s with turns := rest }

/-- The selected micro-operation runs, with the host silent and at the sequencer's turn (R66, R84). -/
theorem step_runs_selected (s s' : State) (i : Instr) (hs : SequencerActsOn s s')
    (hi : decodeSelector s.selector = .ok i) : step s = exec i s' := by
  rcases hs with ⟨hturns, rfl⟩ | ⟨rest, hturns, rfl⟩
  · simp only [step, hturns, sequencerAlone, hi]
  · rw [step_cons s _ rest hturns]
    simp only [takeTurn, sequencerTurn, State.turns_selector, hi]

/-- With no step selected and nothing offered the block has no step (log 5). -/
theorem step_alone_unselected (s : State) (e : Rejection) (hturns : s.turns = [])
    (he : decodeSelector s.selector = .error e) : step s = .fault .noStep := by
  simp only [step, hturns, sequencerAlone, he]

/-- With no step selected the sequencer's turn passes (log 6). -/
theorem step_turn_unselected (s : State) (e : Rejection) (rest : List Turn) (hturns : s.turns = .sequencer :: rest)
    (he : decodeSelector s.selector = .error e) : step s = .next { s with turns := rest } := by
  rw [step_cons s _ rest hturns]
  simp only [takeTurn, sequencerTurn, State.turns_selector, he]

/-- `VAR` and `PHASE` select the instruction whose code they make up (R84). -/
theorem decodeSelector_of_encode (s : State) (i : Instr) (v : Bool) (p : BitVec 3)
    (hcode : encode i = .ustep (selectorOf v p)) (hv : s.var = v) (hp : s.phase = p) :
    decodeSelector s.selector = .ok i := by
  subst hv hp
  exact (decodeIsInverseOfEncode (.ustep s.selector) i).mpr hcode.symm

theorem decodeSelector_idle (s : State) (hp : s.phase = phaseIdle) : decodeSelector s.selector = .error .idleSelector := by
  rw [State.selector, hp]
  cases s.var <;> rfl

/-- Settles O7: each row of the table is the code of its micro-operation, and the selected one runs. -/
theorem varAndPhaseSelectTheStep : Obligations.VarAndPhaseSelectTheStep := by
  constructor
  · intro s s' hs
    have row (i : Instr) (v : Bool) (p : BitVec 3) (hcode : encode i = .ustep (selectorOf v p)) (hv : s.var = v)
        (hp : s.phase = p) : step s = exec i s' :=
      step_runs_selected s s' i hs (decodeSelector_of_encode s i v p hcode hv hp)
    exact ⟨row .init32 _ _ rfl, row .block32 _ _ rfl, row .tail32 _ _ rfl, row .final32 _ _ rfl,
      row .init64 _ _ rfl, row .block64 _ _ rfl, row .tail64 _ _ rfl, row .final64 _ _ rfl⟩
  · intro s i hp hok
    have herror : decode (.ustep s.selector) = .error .idleSelector := decodeSelector_idle s hp
    simp [herror] at hok

/-- Settles O9: in the idle block the selector decodes to no step. -/
theorem idleBlockWaitsForTheHost : Obligations.IdleBlockWaitsForTheHost := fun s hp =>
  ⟨fun hturns => step_alone_unselected s _ hturns (decodeSelector_idle s hp),
    fun rest hturns => step_turn_unselected s _ rest hturns (decodeSelector_idle s hp)⟩

/-- A `CMD` write of a word that decodes runs its command in the idle block (R57, R101). -/
theorem step_runs_command (s : State) (w : Word) (i : Instr) (rest : List Turn) (hi : decodeCommand w = .ok i)
    (hp : s.phase = phaseIdle) (hturns : s.turns = cmdWrite w :: rest) : step s = exec i { s with turns := rest } := by
  obtain ⟨u, d, rfl, rfl⟩ := decodeCommand_ok w i hi
  calc step s = .next (({ s with turns := rest } : State).accept u d) := step_command s u d rest hturns hp
    _ = execCommand u d { s with turns := rest } := (execCommand_idle u d { s with turns := rest } hp).symm
    _ = exec (commandInstr u d) { s with turns := rest } := (exec_commandInstr u d _).symm

/-- Settles O10: a selector's micro-operation by `step_runs_selected`, a command by `step_runs_command`. -/
theorem stepRunsTheDecodedInstruction : Obligations.StepRunsTheDecodedInstruction := fun s i rest =>
  ⟨fun hi hturns => step_runs_selected s _ i (.inl ⟨hturns, rfl⟩) hi,
    fun hi hturns => step_runs_selected s _ i (.inr ⟨rest, hturns, rfl⟩) hi,
    fun w hi hp hturns => step_runs_command s w i rest hi hp hturns⟩

/-! ### Words of the opcode table -/

theorem eq_ok_of_toOption (r : Except Rejection Instr) (i : Instr) (h : r.toOption = some i) : r = .ok i := by
  cases r with
  | ok j => exact congrArg Except.ok (Option.some.inj h)
  | error e => cases h

/-- A table word that decodes is a command word at 32 bits and a selector otherwise (log 20). -/
theorem decodeTableWord_some (nbits w : Nat) (i : Instr) (h : decodeTableWord nbits w = some i) :
    (nbits = 32 ∧ decodeCommand (BitVec.ofNat 32 w) = .ok i) ∨
    (nbits ≠ 32 ∧ decodeSelector (BitVec.ofNat 4 w) = .ok i) := by
  unfold decodeTableWord at h
  split_ifs at h with h32 _ _ _
  · exact .inl ⟨h32, eq_ok_of_toOption _ i h⟩
  · exact .inr ⟨h32, eq_ok_of_toOption _ i h⟩

/-- Settles O11: a placed command word is the next `CMD` write in the idle block; a placed selector is the block's own,
at the sequencer's turn. -/
theorem placedTableWordRunsNext : Obligations.PlacedTableWordRunsNext := by
  intro s nbits w i h
  rcases decodeTableWord_some nbits w i h with ⟨rfl, hi⟩ | ⟨hn, hi⟩
  · refine ⟨s.var, phaseIdle, ?_, fun _ => ⟨rfl, rfl⟩, fun hne => absurd rfl hne⟩
    exact step_runs_command (s.withFetchWord 32 w) _ i s.turns hi rfl rfl
  · have hsel := selectorOf_fields (BitVec.ofNat 4 w)
    refine ⟨_, _, ?_, fun h32 => absurd h32 hn, fun _ => hsel⟩
    rw [State.withFetchWord, if_neg hn]
    refine step_runs_selected _ _ i (.inr ⟨s.turns, rfl, rfl⟩) ?_
    rw [State.selector, hsel]
    exact hi

end Sys2Proof.Machine

namespace Sys2Proof.Machine

/-! ### Quiet turns: the sequencer's steps are what counts -/

/-- The block by itself: no turn is offered and no answer is held. -/
def State.alone (s : State) : State := { s with turns := [], reply := none }

theorem guardRead_turns_reply (off n : Nat) (s t : State) (us : List Turn) (rep : Option Reply)
    (h : guardRead off n (.next s) = .next t) :
    guardRead off n (.next { s with turns := us, reply := rep }) = .next { t with turns := us, reply := rep } := by
  obtain ⟨hin, h⟩ := guardRead_next _ _ _ _ h
  cases h
  exact guardRead_in _ _ _ hin

/-- A micro-operation neither reads nor writes the model's own fields `turns` and `reply`. -/
theorem micro_turns_reply (s t : State) (i : Instr) (us : List Turn) (rep : Option Reply)
    (hi : decodeSelector s.selector = .ok i) (h : exec i s = .next t) :
    exec i { s with turns := us, reply := rep } = .next { t with turns := us, reply := rep } := by
  cases i with
  | hash32 | hash64 | hash32d | hash64d => exact absurd (by decide) (decodeSelector_not_command s _ hi)
  | init32 | final32 | init64 | final64 => cases h; rfl
  | block32 | tail32 | block64 | tail64 => exact guardRead_turns_reply _ _ _ t us rep h

/-- What the sequencer does in the block by itself it does at its turn among the host's. -/
theorem step_alone (s t : State) (rest : List Turn) (hturns : s.turns = .sequencer :: rest)
    (h : step s.alone = .next t) :
    t.alone = t ∧ step s = .next { t with turns := rest, reply := s.reply } := by
  cases hd : decodeSelector s.selector with
  | ok i =>
    rw [step_runs_selected s.alone s.alone i (.inl ⟨rfl, rfl⟩) hd] at h
    constructor
    · exact Host.Outcome.next.inj ((micro_turns_reply s.alone t i [] none hd h).symm.trans h)
    · rw [step_runs_selected s _ i (.inr ⟨rest, hturns, rfl⟩) hd]
      exact micro_turns_reply s.alone t i rest s.reply hd h
  | error e => cases (step_alone_unselected s.alone e rfl hd).symm.trans h

theorem step_quiet_host (s : State) (x : Transaction) (rest : List Turn) (hturns : s.turns = .host x :: rest)
    (hquiet : Turn.quiet (.host x) = true) : ∃ rep, step s = .next { s with turns := rest, reply := rep } := by
  obtain ⟨rep, hstep⟩ := readsHaveNoSideEffect s x rest hturns (eq_of_beq hquiet)
  exact ⟨some rep, hstep⟩

/-- A run of at least one step begins with a step that completes. -/
theorem run_succ_next (n : Nat) (s t : State) (h : run (n + 1) s = .next t) :
    ∃ u, step s = .next u ∧ run n u = .next t := by
  rw [run] at h
  split at h
  · next u hu => exact ⟨u, hu, h⟩
  · cases h
  · cases h

/-- Host reads among the sequencer's turns leave what the sequencer does by itself (R61, R129, R149). -/
theorem run_quiet (us : List Turn) : ∀ (s t : State) (rest : List Turn), s.turns = us ++ rest →
    (∀ v ∈ us, Turn.quiet v = true) → run (seqTurns us) s.alone = .next t →
    ∃ rep, run us.length s = .next { t with turns := rest, reply := rep } := by
  induction us with
  | nil =>
    intro s t rest hturns _ h
    cases h
    exact ⟨s.reply, by rw [← List.nil_append rest, ← hturns]; rfl⟩
  | cons v us ih =>
    intro s t rest hturns hquiet h
    obtain ⟨hv, hus⟩ := List.forall_mem_cons.mp hquiet
    cases v with
    | host x =>
      obtain ⟨rep, hstep⟩ := step_quiet_host s x (us ++ rest) hturns hv
      obtain ⟨rep', hrun⟩ := ih { s with turns := us ++ rest, reply := rep } t rest rfl hus h
      exact ⟨rep', (run_succ _ s _ hstep).trans hrun⟩
    | sequencer =>
      obtain ⟨w, hw, hrun⟩ := run_succ_next _ s.alone t h
      obtain ⟨halone, hstep⟩ := step_alone s w (us ++ rest) hturns hw
      rw [← halone] at hrun
      obtain ⟨rep, hrun⟩ := ih { w with turns := us ++ rest, reply := s.reply } t rest rfl hus hrun
      exact ⟨rep, (run_succ _ s _ hstep).trans hrun⟩
    | reset => cases hv

/-- In the idle block quiet turns pass (R61, R84). -/
theorem run_quiet_idle (us : List Turn) : ∀ (s : State) (rest : List Turn), s.phase = phaseIdle →
    s.turns = us ++ rest → (∀ v ∈ us, Turn.quiet v = true) →
    ∃ rep, run us.length s = .next { s with turns := rest, reply := rep } := by
  induction us with
  | nil => exact fun s rest _ hturns _ => ⟨s.reply, by rw [← List.nil_append rest, ← hturns]; rfl⟩
  | cons v us ih =>
    intro s rest hp hturns hquiet
    obtain ⟨hv, hus⟩ := List.forall_mem_cons.mp hquiet
    have hstep : ∃ rep, step s = .next { s with turns := us ++ rest, reply := rep } := by
      cases v with
      | host x => exact step_quiet_host s x (us ++ rest) hturns hv
      | sequencer => exact ⟨s.reply, (idleBlockWaitsForTheHost s hp).2 (us ++ rest) hturns⟩
      | reset => cases hv
    obtain ⟨rep, hstep⟩ := hstep
    obtain ⟨rep', hrun⟩ := ih { s with turns := us ++ rest, reply := rep } rest hp rfl hus
    exact ⟨rep', (run_succ _ s _ hstep).trans hrun⟩

/-! ### A hash by itself, from INIT to `DONE` -/

/-- The unit `VAR` names (R38). -/
def State.unit (s : State) : HashUnit := if s.var then .u64 else .u32

/-- The running hash after its first `n` groups: the accumulator of its unit is the closed form's partial value (R128,
R148). -/
def State.loop (s : State) (n : Nat) : State := { s with
  h32 := if s.var then s.h32 else blocks32 s.dataByte (init32 s.seed s.len) n
  h64 := if s.var then blocks64 s.dataByte (init64 s.seed s.len) n else s.h64
  cnt := BitVec.ofNat 32 n
  phase := if n < s.groups then phaseBlock else phaseTail }

/-- The hash with its tail bytes mixed in (R125, R145). -/
def State.tailed (s : State) : State := { s with
  h32 := if s.var then s.h32 else s.tailed32 (blocks32 s.dataByte (init32 s.seed s.len) s.groups)
  h64 := if s.var then s.tailed64 (blocks64 s.dataByte (init64 s.seed s.len) s.groups) else s.h64
  cnt := BitVec.ofNat 32 s.groups
  phase := phaseFinal }

/-- The hash when it is done (R129, R149). -/
def State.hashed (s : State) : State := { s with
  h32 := if s.var then s.h32 else mh32 s.dataByte s.len s.seed
  h64 := if s.var then mh64 s.dataByte s.len s.seed else s.h64
  cnt := BitVec.ofNat 32 s.groups
  result := hashValue s.unit s.dataByte s.len s.seed
  done := true
  phase := phaseIdle }

@[simp] theorem State.loop_dataByte (s : State) (n : Nat) : (s.loop n).dataByte = s.dataByte :=
  State.dataByte_congr s (s.loop n) rfl rfl

theorem State.groups_lt (s : State) : s.groups < 2 ^ 32 := by
  cases hv : s.var with
  | false => rw [s.groups_u32 hv]; exact BitVec.isLt _
  | true => rw [s.groups_u64 hv]; exact BitVec.isLt _

/-- INIT sets up the loop (R121, R141). -/
theorem step_init (s : State) (hturns : s.turns = []) (hp : s.phase = phaseInit) : step s = .next (s.loop 0) := by
  obtain ⟨row32, _, _, _, row64, _⟩ := varAndPhaseSelectTheStep.1 s s (.inl ⟨hturns, rfl⟩)
  cases hv : s.var with
  | false =>
    rw [row32 hv hp]
    simp [exec, execInit32, State.loop, hv, blocks32, word_ne_zero_iff, s.groups_u32 hv]
  | true =>
    rw [row64 hv hp]
    simp [exec, execInit64, State.loop, hv, blocks64, word_ne_zero_iff, s.groups_u64 hv]

/-- BLOCK consumes the next group, which lies within `LEN` (R62, R123, R143). -/
theorem step_loop (s : State) (n : Nat) (hturns : s.turns = []) (hlen : s.len.toNat ≤ bufBytes) (hn : n < s.groups) :
    step (s.loop n) = .next (s.loop (n + 1)) := by
  have hp : (s.loop n).phase = phaseBlock := if_pos hn
  have hcnt : (s.loop n).cnt.toNat = n := Nat.mod_eq_of_lt (hn.trans s.groups_lt)
  have hsucc : (s.loop n).cnt + 1#32 = BitVec.ofNat 32 (n + 1) := (BitVec.ofNat_add n 1).symm
  have hlt : (BitVec.ofNat 32 (n + 1)).toNat = n + 1 := Nat.mod_eq_of_lt (Nat.lt_of_le_of_lt hn s.groups_lt)
  obtain ⟨_, row32, _, _, _, row64, _⟩ := varAndPhaseSelectTheStep.1 (s.loop n) _ (.inl ⟨hturns, rfl⟩)
  cases hv : s.var with
  | false =>
    have hin : (s.loop n).groupOff32 + 4 ≤ bufBytes := by
      rw [s.groups_u32 hv, toNat_nblk32] at hn
      rw [State.groupOff32, hcnt]
      omega
    rw [row32 hv hp, exec, execBlock32, guardRead_in _ _ _ (.inr hin), dataRead32, State.groupOff32, hcnt, hsucc,
      State.loop_dataByte]
    simp [State.loop, hv, blocks32, BitVec.lt_def, s.groups_u32 hv, hlt]
  | true =>
    have hin : (s.loop n).groupOff64 + 8 ≤ bufBytes := by
      rw [s.groups_u64 hv, toNat_nblk64] at hn
      rw [State.groupOff64, hcnt]
      omega
    rw [row64 hv hp, exec, execBlock64, guardRead_in _ _ _ (.inr hin), dataRead64, State.groupOff64, hcnt, hsucc,
      State.loop_dataByte]
    simp [State.loop, hv, blocks64, BitVec.lt_def, s.groups_u64 hv, hlt]

/-- TAIL follows the last group (R125, R145). -/
theorem step_tail (s : State) (hturns : s.turns = []) (hlen : s.len.toNat ≤ bufBytes) :
    step (s.loop s.groups) = .next s.tailed := by
  have hp : (s.loop s.groups).phase = phaseTail := if_neg (Nat.lt_irrefl _)
  obtain ⟨_, _, row32, _, _, _, row64, _⟩ := varAndPhaseSelectTheStep.1 (s.loop s.groups) _ (.inl ⟨hturns, rfl⟩)
  cases hv : s.var with
  | false =>
    have hin : tailBase32 s.len + rem32 s.len ≤ bufBytes := by rwa [tailBase32_add_rem32]
    rw [row32 hv hp, exec, execTail32_eq]
    refine (guardRead_in _ _ _ (.inr hin)).trans ?_
    simp only [State.tailed32, State.loop_dataByte]
    simp [State.loop, State.tailed, State.tailed32, hv]
  | true =>
    have hin : tailBase64 s.len + rem64 s.len ≤ bufBytes := by rwa [tailBase64_add_rem64]
    rw [row64 hv hp, exec, execTail64_eq]
    refine (guardRead_in _ _ _ (.inr hin)).trans ?_
    simp only [State.tailed64, State.loop_dataByte]
    simp [State.loop, State.tailed, State.tailed64, hv]

/-- FINAL delivers the closed form (R127, R147). -/
theorem step_final (s : State) (hturns : s.turns = []) : step s.tailed = .next s.hashed := by
  obtain ⟨_, _, _, row32, _, _, _, row64⟩ := varAndPhaseSelectTheStep.1 s.tailed _ (.inl ⟨hturns, rfl⟩)
  cases hv : s.var with
  | false =>
    rw [row32 hv rfl]
    simp [exec, execFinal32, State.tailed, State.hashed, State.unit, hv, hashValue, mh32, State.tailed32,
      s.groups_u32 hv]
  | true =>
    rw [row64 hv rfl]
    simp [exec, execFinal64, State.tailed, State.hashed, State.unit, hv, hashValue, mh64, State.tailed64,
      s.groups_u64 hv]

/-- INIT and the first `n` groups. -/
theorem run_loop (s : State) (hturns : s.turns = []) (hp : s.phase = phaseInit) (hlen : s.len.toNat ≤ bufBytes)
    (n : Nat) (hn : n ≤ s.groups) : run (n + 1) s = .next (s.loop n) := by
  induction n with
  | zero => exact run_succ 0 s _ (step_init s hturns hp)
  | succ n ih =>
    rw [run_add (n + 1) 1 s _ (ih (Nat.le_of_succ_le hn))]
    exact run_succ 0 _ _ (step_loop s n hturns hlen hn)

/-- A hash takes `NBLK + 3` steps of the sequencer (R202). -/
theorem run_hash (s : State) (hturns : s.turns = []) (hp : s.phase = phaseInit) (hlen : s.len.toNat ≤ bufBytes) :
    run (s.groups + 3) s = .next s.hashed := by
  rw [run_add (s.groups + 1) 2 s _ (run_loop s hturns hp hlen s.groups le_rfl),
    run_succ 1 _ _ (step_tail s hturns hlen)]
  exact run_succ 0 _ _ (step_final s hturns)

/-! ### The outcome of a command -/

theorem State.accept_turns (s : State) (u : HashUnit) (d : Bool) (us : List Turn) :
    ({ s with turns := us } : State).accept u d = { s.accept u d with turns := us } := by
  rw [State.accept_eq, State.accept_eq]
  rfl

/-- Acceptance leaves the number of groups to the unit and `LEN` (R120, R140). -/
theorem State.accept_groups (s : State) (u : HashUnit) (d : Bool) : (s.accept u d).groups = groupCount u s.len := by
  rw [State.accept_eq]
  cases u <;> rfl

/-- A command accepted within bounds and `NBLK + 3` steps of the sequencer, with any host reads among them, hash the
operands as they were at acceptance (R129, R149). -/
theorem run_command_inBounds (s : State) (u : HashUnit) (d : Bool) (us rest : List Turn) (hp : s.phase = phaseIdle)
    (hbounds : s.len.toNat ≤ min s.dsize.toNat bufBytes)
    (hturns : s.turns = cmdWrite (commandCode u d) :: (us ++ rest)) (hquiet : ∀ v ∈ us, Turn.quiet v = true)
    (hcount : seqTurns us = groupCount u s.len + 3) :
    ∃ rep, run (us.length + 1) s = .next { (s.accept u d).hashed with turns := rest, reply := rep } := by
  have hstep := step_command s u d _ hturns hp
  rw [State.accept_turns] at hstep
  have hphase : (s.accept u d).phase = phaseInit := (accept_phase s u d hp).trans (if_pos hbounds)
  have hlen : (s.accept u d).len.toNat ≤ bufBytes := by
    rw [State.accept_eq]
    exact hbounds.trans (Nat.min_le_right _ _)
  have hhash : run (seqTurns us) (s.accept u d).alone = .next (s.accept u d).alone.hashed := by
    rw [hcount, ← s.accept_groups u d]
    exact run_hash (s.accept u d).alone rfl hphase hlen
  obtain ⟨rep, hrun⟩ := run_quiet us { s.accept u d with turns := us ++ rest } _ rest rfl hquiet hhash
  exact ⟨rep, (run_succ _ s _ hstep).trans hrun⟩

/-- With `LEN` above `AVAIL` a command ends at acceptance, and quiet turns pass (R101, R161). -/
theorem run_command_outOfBounds (s : State) (u : HashUnit) (d : Bool) (us rest : List Turn) (hp : s.phase = phaseIdle)
    (hbounds : min s.dsize.toNat bufBytes < s.len.toNat) (hturns : s.turns = cmdWrite (commandCode u d) :: (us ++ rest))
    (hquiet : ∀ v ∈ us, Turn.quiet v = true) :
    ∃ rep, run (us.length + 1) s = .next { s.accept u d with turns := rest, reply := rep } := by
  have hstep := step_command s u d _ hturns hp
  rw [State.accept_turns] at hstep
  have hphase : (s.accept u d).phase = phaseIdle := (accept_phase s u d hp).trans (if_neg (Nat.not_le.mpr hbounds))
  obtain ⟨rep, hrun⟩ := run_quiet_idle us { s.accept u d with turns := us ++ rest } rest hphase rfl hquiet
  exact ⟨rep, (run_succ _ s _ hstep).trans hrun⟩

/-- What a command leaves in `RESULT`, `DONE` and `ERR`: the hash, or 0 and the bounds error (R109). -/
theorem run_command_outcome (s : State) (u : HashUnit) (d : Bool) (us rest : List Turn) (hp : s.phase = phaseIdle)
    (hturns : s.turns = cmdWrite (commandCode u d) :: (us ++ rest)) (hquiet : ∀ v ∈ us, Turn.quiet v = true)
    (hcount : seqTurns us = groupCount u s.len + 3) :
    ∃ t, run (us.length + 1) s = .next t ∧ t.err = s.outOfBounds ∧ t.done = !s.outOfBounds ∧
      t.result = if s.outOfBounds then 0#64 else hashValue u s.dataByte s.len (s.commandSeed u d) := by
  cases hb : s.outOfBounds with
  | false =>
    have hbounds := (State.not_outOfBounds_iff s).mp hb
    obtain ⟨rep, hrun⟩ := run_command_inBounds s u d us rest hp hbounds hturns hquiet hcount
    rw [accept_inBounds s u d hbounds] at hrun
    refine ⟨_, hrun, rfl, rfl, ?_⟩
    cases u <;> rfl
  | true =>
    have hbounds := (State.outOfBounds_iff s).mp hb
    obtain ⟨rep, hrun⟩ := run_command_outOfBounds s u d us rest hp hbounds hturns hquiet
    rw [accept_outOfBounds s u d hbounds] at hrun
    exact ⟨_, hrun, rfl, rfl, rfl⟩

theorem hashValue_congr (u : HashUnit) (d e : Nat → Byte) (l s : Word) (h : ∀ a, a < l.toNat → d a = e a) :
    hashValue u d l s = hashValue u e l s := by
  cases u with
  | u32 => rw [hashValue, hashValue, mh32_congr d e l s h]
  | u64 => rw [hashValue, hashValue, mh64_congr d e l s h]

/-- Settles O52: the outcome of each run is the function of `run_command_outcome`, whose arguments agree. -/
theorem outcomeDependsOnTheOperandsOnly : Obligations.OutcomeDependsOnTheOperandsOnly := by
  intro s₁ s₂ u d us₁ us₂ rest₁ rest₂ hp₁ hp₂ hlen hseed hbytes hbounds hturns₁ hturns₂ hquiet₁ hquiet₂ hcount₁ hcount₂
  rw [hlen] at hcount₂
  obtain ⟨t₁, hrun₁, herr₁, hdone₁, hresult₁⟩ := run_command_outcome s₁ u d us₁ rest₁ hp₁ hturns₁ hquiet₁ hcount₁
  obtain ⟨t₂, hrun₂, herr₂, hdone₂, hresult₂⟩ := run_command_outcome s₂ u d us₂ rest₂ hp₂ hturns₂ hquiet₂ hcount₂
  have hout : s₁.outOfBounds = s₂.outOfBounds := by
    rw [Bool.eq_iff_iff, State.outOfBounds_iff, State.outOfBounds_iff, hbounds]
  have hcommandSeed : s₁.commandSeed u d = s₂.commandSeed u d := by
    cases d with
    | false => exact hseed rfl
    | true => rfl
  refine ⟨t₁, t₂, hrun₁, hrun₂, ?_, ?_, ?_, ?_⟩
  · rw [hresult₁, hresult₂, hout, hcommandSeed, hashValue_congr u _ _ _ _ hbytes, hlen]
  · rw [hdone₁, hdone₂, hout]
  · rw [herr₁, herr₂, hout]
  · rw [hdone₁, herr₁]

/-! ### Command acceptance -/

theorem exec_command_idle (s : State) (u : HashUnit) (d : Bool) (hp : s.phase = phaseIdle) :
    exec (commandInstr u d) s = .next (s.accept u d) :=
  (exec_commandInstr u d s).trans (execCommand_idle u d s hp)

/-- Settles O23: acceptance as `accept_inBounds` and `accept_outOfBounds` write it out, for each unit and seed. -/
theorem commandAcceptanceWritesExactlyThese : Obligations.CommandAcceptanceWritesExactlyThese := by
  intro s hp
  refine ⟨fun u d rest hturns => ?_, fun hbounds => ?_, fun hbounds => ?_⟩
  · exact step_runs_command s _ _ rest (decodeCommand_commandCode u d) hp hturns
  · have accepted (u : HashUnit) (d : Bool) :=
      (exec_command_idle s u d hp).trans (congrArg _ (accept_inBounds s u d hbounds))
    exact ⟨accepted .u32 false, accepted .u32 true, accepted .u64 false, accepted .u64 true⟩
  · have accepted (u : HashUnit) (d : Bool) :=
      (exec_command_idle s u d hp).trans (congrArg _ (accept_outOfBounds s u d hbounds))
    exact ⟨accepted .u32 false, accepted .u32 true, accepted .u64 false, accepted .u64 true⟩

/-! ### Default-seed commands -/

theorem stmtTurn_cmd (u : HashUnit) (d : Bool) : stmtTurn (.cmd u d) = cmdWrite (commandCode u d) := by
  cases u <;> cases d <;> rfl

/-- A default-seed command accepts as the explicit-seed one does with the default seed in `SEED` (R110). -/
theorem State.accept_defaultSeed (s : State) (u : HashUnit) (rep : Option Reply) :
    s.accept u true = ({ s with seed := HashUnit.defaultSeed u, reply := rep } : State).accept u false := by
  rw [State.accept_eq, State.accept_eq]
  rfl

theorem step_seed_write (s : State) (v : Word) (rest : List Turn) (hturns : s.turns = stmtTurn (.wr .seed v) :: rest)
    (hp : s.phase = phaseIdle) :
    step s = .next { s with
      turns := rest, seed := v, reply := some { resp := .okay, rdata := none, reason := none } } := by
  obtain ⟨_, seed, _⟩ := registerWritesChangeOneRegister s 0x08 v rest hturns
  exact seed hp rfl

theorem run_command (s : State) (u : HashUnit) (d : Bool) (rest : List Turn)
    (hturns : s.turns = stmtTurn (.cmd u d) :: rest) (hp : s.phase = phaseIdle) :
    run 1 s = .next (({ s with turns := rest } : State).accept u d) := by
  rw [stmtTurn_cmd] at hturns
  exact run_succ 0 s _ (step_command s u d rest hturns hp)

/-- A `SEED` write of the default seed and the explicit-seed command are an acceptance with the default seed (R110). -/
theorem run_seed_then_command (s : State) (u : HashUnit) (rest : List Turn)
    (hturns : s.turns = stmtTurn (.wr .seed (HashUnit.defaultSeed u)) :: stmtTurn (.cmd u false) :: rest)
    (hp : s.phase = phaseIdle) : run 2 s = .next (({ s with turns := rest } : State).accept u true) := by
  rw [run_succ 1 s _ (step_seed_write s _ _ hturns hp)]
  refine (run_command _ u false rest ?_ ?_).trans ?_
  · rfl
  · exact hp
  · exact congrArg _ (State.accept_defaultSeed { s with turns := rest } u _).symm

/-- Settles O26: for each unit both runs are the acceptance with the default seed. -/
theorem defaultSeedCommandIsSeedWriteThenCommand : Obligations.DefaultSeedCommandIsSeedWriteThenCommand := by
  intro s rest hp
  have both (u : HashUnit) := (run_command { s with turns := _ } u true rest rfl hp).trans
    (run_seed_then_command { s with turns := _ } u rest rfl hp).symm
  exact ⟨both .u32, both .u64⟩

end Sys2Proof.Machine

namespace Sys2Proof.Machine

/-! ### The value of a running hash -/

/-- A 32-bit hash is bound by the clauses of its own unit only (R128). -/
theorem State.HashInv.of_u32 {s : State} (hv : s.var = false)
    (hloop : s.phase = phaseBlock ∨ s.phase = phaseTail →
      s.h32 = blocks32 s.dataByte (init32 s.seed s.len) s.cnt.toNat)
    (hfinal : s.phase = phaseFinal →
      s.h32 = s.tailed32 (blocks32 s.dataByte (init32 s.seed s.len) (nblk32 s.len).toNat)) : s.HashInv where
  loop32 _ := hloop
  final32 _ := hfinal
  loop64 h := by simp [hv] at h
  final64 h := by simp [hv] at h

/-- A 64-bit hash is bound by the clauses of its own unit only (R148). -/
theorem State.HashInv.of_u64 {s : State} (hv : s.var = true)
    (hloop : s.phase = phaseBlock ∨ s.phase = phaseTail →
      s.h64 = blocks64 s.dataByte (init64 s.seed s.len) s.cnt.toNat)
    (hfinal : s.phase = phaseFinal →
      s.h64 = s.tailed64 (blocks64 s.dataByte (init64 s.seed s.len) (nblk64 s.len).toNat)) : s.HashInv where
  loop64 _ := hloop
  final64 _ := hfinal
  loop32 h := by simp [hv] at h
  final32 h := by simp [hv] at h

/-- The value does not depend on the model's own fields `turns` and `reply`. -/
theorem State.HashInv.turns_reply {s : State} (hs : s.HashInv) (us : List Turn) (rep : Option Reply) :
    ({ s with turns := us, reply := rep } : State).HashInv :=
  ⟨hs.loop32, hs.loop64, hs.final32, hs.final64⟩

/-- Acceptance ends in IDLE or INIT, where no value is owed yet. -/
theorem State.HashInv.accept (s : State) (u : HashUnit) (d : Bool) (hp : s.phase = phaseIdle) :
    (s.accept u d).HashInv := by
  have hphase := accept_phase s u d hp
  split at hphase
  · constructor <;> simp [hphase]
  · exact .of_idle hphase

theorem loop_phase_ne_final (P : Prop) [Decidable P] : (if P then phaseBlock else phaseTail) ≠ phaseFinal := by
  split <;> decide

/-- INIT and BLOCK of U32 leave the fold of the first `c` groups. -/
theorem State.HashInv.loop_u32 {s : State} (hv : s.var = false) {a c : Word} (P : Prop) [Decidable P]
    (ha : a = blocks32 s.dataByte (init32 s.seed s.len) c.toNat) :
    ({ s with h32 := a, cnt := c, phase := if P then phaseBlock else phaseTail } : State).HashInv :=
  .of_u32 hv (fun _ => ha) (absurd · (loop_phase_ne_final P))

/-- INIT and BLOCK of U64 leave the fold of the first `c` groups. -/
theorem State.HashInv.loop_u64 {s : State} (hv : s.var = true) {a : DWord} {c : Word} (P : Prop) [Decidable P]
    (ha : a = blocks64 s.dataByte (init64 s.seed s.len) c.toNat) :
    ({ s with h64 := a, cnt := c, phase := if P then phaseBlock else phaseTail } : State).HashInv :=
  .of_u64 hv (fun _ => ha) (absurd · (loop_phase_ne_final P))

/-- TAIL of U32 leaves the whole fold with the tail applied. -/
theorem State.HashInv.final_u32 {s : State} (hv : s.var = false) {a : Word}
    (ha : a = s.tailed32 (blocks32 s.dataByte (init32 s.seed s.len) (nblk32 s.len).toNat)) :
    ({ s with h32 := a, phase := phaseFinal } : State).HashInv :=
  .of_u32 hv (by simp) (fun _ => ha)

/-- TAIL of U64 leaves the whole fold with the tail applied. -/
theorem State.HashInv.final_u64 {s : State} (hv : s.var = true) {a : DWord}
    (ha : a = s.tailed64 (blocks64 s.dataByte (init64 s.seed s.len) (nblk64 s.len).toNat)) :
    ({ s with h64 := a, phase := phaseFinal } : State).HashInv :=
  .of_u64 hv (by simp) (fun _ => ha)

/-- Below a bound the counter does not wrap (log 15). -/
theorem toNat_add_one_of_lt {c n : Word} (h : c < n) : (c + 1#32).toNat = c.toNat + 1 := by
  have hc := BitVec.lt_def.mp h
  have hn := n.isLt
  rw [BitVec.toNat_add]
  exact Nat.mod_eq_of_lt (by simp; omega)

/-- Each micro-operation takes the accumulator to the closed form's next value. -/
theorem State.HashInv.micro {s t : State} (hinv : s.Inv) (hs : s.HashInv) {i : Instr}
    (hi : decodeSelector s.selector = .ok i) (h : exec i s = .next t) : t.HashInv := by
  rcases micro_cases s t i hi h with ⟨_, hv, rfl⟩ | ⟨_, hv, rfl⟩ | ⟨hp, hv, _, rfl⟩ | ⟨hp, hv, _, rfl⟩ |
    ⟨hp, hv, rfl⟩ | ⟨hp, hv, rfl⟩ | ⟨_, _, rfl⟩ | ⟨_, _, rfl⟩
  · exact .loop_u32 hv _ rfl
  · exact .loop_u64 hv _ rfl
  · refine .loop_u32 hv _ ?_
    rw [toNat_add_one_of_lt (hinv.block32 hp hv), blocks32, ← hs.loop32 hv (.inl hp)]
  · refine .loop_u64 hv _ ?_
    rw [toNat_add_one_of_lt (hinv.block64 hp hv), blocks64, ← hs.loop64 hv (.inl hp)]
  · refine .final_u32 hv ?_
    rw [hs.loop32 hv (.inr hp), hinv.tail32 (.inl hp) hv]
  · refine .final_u64 hv ?_
    rw [hs.loop64 hv (.inr hp), hinv.tail64 (.inl hp) hv]
  · exact .of_idle rfl
  · exact .of_idle rfl

/-- Settles O40: by what a step can do. A reset and every host write leave the block idle or in INIT, the other turns
leave the hash alone, and a micro-operation takes it to its next value. -/
theorem everyStepKeepsThePartialHash : Obligations.EveryStepKeepsThePartialHash := by
  intro s t hinv hs h
  rcases step_effect s t h with ⟨rest, _, rfl⟩ | ⟨u, rest, rep, _, _, rfl⟩ | ⟨off, n, v, rest, _, hp, _, rfl⟩ |
    ⟨off, v, rest, _, hp, _, rfl⟩ | ⟨u, d, rest, _, hp, rfl⟩ | ⟨i, rest, _, hi, he⟩
  · exact .of_idle rfl
  · exact hs.turns_reply rest rep
  · exact .of_idle hp
  · obtain ⟨a, b, c, heq⟩ := ({ s with turns := rest } : State).regWrite_operands off v
    rw [heq]
    exact .of_idle hp
  · exact .accept _ u d hp
  · exact .micro (hinv.turns_reply rest s.reply) (hs.turns_reply rest s.reply) hi he

/-! ### A 32-bit hash from command to result -/

/-- The hash of U32 when it is done (R129). -/
theorem State.hashed_u32 (s : State) (hv : s.var = false) : s.hashed = { s with
    h32 := mh32 s.dataByte s.len s.seed, cnt := nblk32 s.len
    result := (mh32 s.dataByte s.len s.seed).setWidth 64, done := true, phase := phaseIdle } := by
  simp [State.hashed, State.unit, hv, hashValue, s.groups_u32 hv]

/-- Settles O49: the run of a command in bounds, whose outcome for U32 is the closed form. -/
theorem hashThirtyTwoEndToEnd : Obligations.HashThirtyTwoEndToEnd := by
  rintro s d us rest seed hp hbounds hturns hquiet hcount rfl
  obtain ⟨rep, hrun⟩ := run_command_inBounds s .u32 d us rest hp hbounds hturns hquiet hcount
  rw [accept_inBounds s .u32 d hbounds, State.hashed_u32 _ rfl] at hrun
  exact ⟨rep, hrun⟩

end Sys2Proof.Machine

namespace Sys2Proof.Machine

/-! ### The mixes and the avalanches -/

theorem kmix32_eq (k : Word) : kmix32 k = ((k * m32) ^^^ ((k * m32) >>> 24)) * m32 := rfl

theorem fmix32_eq (h : Word) :
    fmix32 h = ((h ^^^ (h >>> 13)) * m32) ^^^ (((h ^^^ (h >>> 13)) * m32) >>> 15) := rfl

theorem kmix64_eq (k : DWord) : kmix64 k = ((k * m64) ^^^ ((k * m64) >>> 47)) * m64 := rfl

theorem fmix64_eq (h : DWord) :
    fmix64 h = ((h ^^^ (h >>> 47)) * m64) ^^^ (((h ^^^ (h >>> 47)) * m64) >>> 47) := rfl

/-- Two products and a shift-XOR, each injective (R122 "derived"). -/
theorem kmix32_injective : Function.Injective kmix32 := by
  intro x y h
  exact mul_m32_inj _ _ (xorShift_inj 24 (by decide) _ _ (mul_m32_inj _ _ h))

/-- Two shift-XORs and a product, each injective (R126 "derived"). -/
theorem fmix32_injective : Function.Injective fmix32 := by
  intro x y h
  exact xorShift_inj 13 (by decide) _ _ (mul_m32_inj _ _ (xorShift_inj 15 (by decide) _ _ h))

/-- Two products and a shift-XOR, each injective (R142 "derived"). -/
theorem kmix64_injective : Function.Injective kmix64 := by
  intro x y h
  exact mul_m64_inj _ _ (xorShift_inj 47 (by decide) _ _ (mul_m64_inj _ _ h))

/-- Two shift-XORs and a product, each injective (R146 "derived"). -/
theorem fmix64_injective : Function.Injective fmix64 := by
  intro x y h
  exact xorShift_inj 47 (by decide) _ _ (mul_m64_inj _ _ (xorShift_inj 47 (by decide) _ _ h))

/-- Settles O59: the formulas are the definitions, and an injective function of finitely many words is a bijection. -/
theorem mixesAndAvalanchesAreBijections : Obligations.MixesAndAvalanchesAreBijections := by
  refine ⟨kmix32_eq, ?_, kmix64_eq, ?_, kmix32_injective.bijective_of_finite, fmix32_injective.bijective_of_finite,
    kmix64_injective.bijective_of_finite, fmix64_injective.bijective_of_finite, by decide, by decide, by decide,
    by decide⟩
  · rintro h b rfl
    exact fmix32_eq h
  · rintro h b rfl
    exact fmix64_eq h

/-! ### The micro-operations of U32 -/

/-- Settles O28: `INIT32` is R121's pseudocode in every state. -/
theorem initThirtyTwoXorsSeedAndLength : Obligations.InitThirtyTwoXorsSeedAndLength :=
  ⟨rfl, fun _ => rfl⟩

/-- A group within the buffer is read and mixed in (R123). -/
theorem exec_block32_in (s : State) (h : s.groupOff32 + 4 ≤ bufBytes) : exec .block32 s = .next { s with
    h32 := mixBlock32 s.h32 (group32 s.dataByte s.groupOff32)
    cnt := s.cnt + 1#32
    phase := if s.cnt + 1#32 < nblk32 s.len then phaseBlock else phaseTail } :=
  guardRead_in s.groupOff32 4 _ (.inr h)

/-- Settles O29: the group read is the concatenation of its bytes, and its mix is R122's formula. -/
theorem blockThirtyTwoMultipliesThenXors : Obligations.BlockThirtyTwoMultipliesThenXors := by
  refine ⟨rfl, ?_⟩
  rintro s hin k k2 hk rfl
  rw [exec_block32_in s hin, group32_eq_append, State.groupOff32, ← hk, mixBlock32, kmix32_eq]
  rfl

/-- The tail of U32 over the buffer, in R124's equivalent form. -/
theorem State.tailed32_eq (s : State) (h : Word) : s.tailed32 h =
    if s.len.toNat % 4 = 0 then h
    else (h ^^^ BitVec.ofNat 32 (∑ j ∈ Finset.range (s.len.toNat % 4),
      (s.dataByte (4 * (s.len.toNat / 4) + j)).toNat * 2 ^ (8 * j))) * m32 := by
  rw [State.tailed32, tail32_eq _ _ _ _ (rem32_le s.len), leNat_eq_sum, rem32_eq, tailBase32_eq]

/-- Without tail bytes nothing is read; else the tail ends at `LEN` (R125). -/
theorem tail32_inBuffer (l : Word) (h : l.toNat % 4 = 0 ∨ l.toNat ≤ bufBytes) :
    rem32 l = 0 ∨ tailBase32 l + rem32 l ≤ bufBytes := by
  rwa [tailBase32_add_rem32, rem32_eq]

/-- Settles O30: the guard admits the read, and the tail has R124's equivalent form. -/
theorem tailThirtyTwoMixesRemainingBytes : Obligations.TailThirtyTwoMixesRemainingBytes := by
  refine ⟨rfl, fun s h => ?_⟩
  rw [exec, execTail32_eq, guardRead_in _ _ _ (tail32_inBuffer s.len h), State.tailed32_eq]
  rfl

/-- Settles O31: `FINAL32` is R127's pseudocode, and its avalanche R126's formula. -/
theorem finalThirtyTwoDeliversTheAvalanche : Obligations.FinalThirtyTwoDeliversTheAvalanche := by
  refine ⟨rfl, ?_⟩
  rintro s b rfl
  rw [exec, execFinal32, fmix32_eq]
  rfl

/-! ### `MH32` as a function of the seed and of the bytes -/

theorem mixBlock32_inj_left (k : Word) : Function.Injective (mixBlock32 · k) := by
  intro x y h
  exact mul_m32_inj _ _ (xor_right_inj _ _ _ h)

theorem mixBlock32_inj_right (h : Word) : Function.Injective (mixBlock32 h) := by
  intro x y hxy
  exact kmix32_injective (xor_left_inj _ _ _ hxy)

theorem blocks32_injective (d : Nat → Byte) (n : Nat) : Function.Injective (blocks32 d · n) := by
  induction n with
  | zero => exact Function.injective_id
  | succ n ih => exact (mixBlock32_inj_left _).comp ih

theorem tail32_injective (d : Nat → Byte) (t rem : Nat) (hr : rem ≤ 3) :
    Function.Injective (tail32 · rem (d t) (d (t + 1)) (d (t + 2))) := by
  intro x y h
  simp only [tail32_eq d t rem _ hr] at h
  split at h
  · exact h
  · exact xor_right_inj _ _ _ (mul_m32_inj _ _ h)

/-- Settles O55: every stage of `MH32` is injective in the accumulator, and the first in the seed. -/
theorem seedToResultIsBijectiveThirtyTwo : Obligations.SeedToResultIsBijectiveThirtyTwo := by
  intro d l
  have hinit : Function.Injective (init32 · l) := fun x y h => xor_right_inj x y l h
  exact (fmix32_injective.comp ((tail32_injective d _ _ (rem32_le l)).comp
    ((blocks32_injective d _).comp hinit))).bijective_of_finite

/-- Groups that differ somewhere are different words. -/
theorem group32_ne (d e : Nat → Byte) (off a : Nat) (h1 : off ≤ a) (h2 : a < off + 4) (hne : d a ≠ e a) :
    group32 d off ≠ group32 e off := by
  intro h
  have hread := congrArg BitVec.toNat h
  rw [toNat_group32, toNat_group32] at hread
  exact hne (leNat_inj d e 4 off hread a h1 h2)

/-- A change inside one group changes the accumulator there, and every later group keeps the difference. -/
theorem blocks32_ne (d e : Nat → Byte) (h : Word) (g a n : Nat) (hsame : ∀ b, b < 4 * n → b / 4 ≠ g → d b = e b)
    (ha : a < 4 * n) (hg : a / 4 = g) (hne : d a ≠ e a) : blocks32 d h n ≠ blocks32 e h n := by
  induction n with
  | zero => omega
  | succ n ih =>
    rw [blocks32, blocks32]
    by_cases hgn : g = n
    · rw [blocks32_congr d e h n fun b hb => hsame b (by omega) (by omega)]
      exact (mixBlock32_inj_right _).ne (group32_ne d e (4 * n) a (by omega) (by omega) hne)
    · rw [group32_congr d e (4 * n) fun b h1 h2 => hsame b (by omega) (by omega)]
      exact (mixBlock32_inj_left _).ne (ih (fun b hb => hsame b (by omega)) (by omega))

/-- A change inside the tail changes the accumulator. -/
theorem tail32_ne (d e : Nat → Byte) (t rem a : Nat) (h : Word) (hr : rem ≤ 3) (h1 : t ≤ a) (h2 : a < t + rem)
    (hne : d a ≠ e a) : tail32 h rem (d t) (d (t + 1)) (d (t + 2)) ≠ tail32 h rem (e t) (e (t + 1)) (e (t + 2)) := by
  rw [tail32_eq d t rem h hr, tail32_eq e t rem h hr, if_neg (by omega), if_neg (by omega)]
  intro heq
  have hword := congrArg BitVec.toNat (xor_left_inj _ _ _ (mul_m32_inj _ _ heq))
  have hsmall (f : Nat → Byte) : leNat f t rem < 2 ^ 32 :=
    (leNat_lt f rem t).trans_le ((Nat.pow_le_pow_right (by decide) hr).trans (by decide))
  rw [BitVec.toNat_ofNat, BitVec.toNat_ofNat, Nat.mod_eq_of_lt (hsmall d), Nat.mod_eq_of_lt (hsmall e)] at hword
  exact hne (leNat_inj d e rem t hword a h1 h2)

/-- Settles O57: a change in a group reaches the tail as another accumulator, a change in the tail meets equal
accumulators; the avalanche is injective. -/
theorem everyByteParticipatesThirtyTwo : Obligations.EveryByteParticipatesThirtyTwo := by
  rintro d e l s g hsame ⟨a, hal, hag, hne⟩
  have hgroups := toNat_nblk32 l
  have hbase := tailBase32_eq l
  have hend := tailBase32_add_rem32 l
  rw [mh32, mh32]
  refine fmix32_injective.ne ?_
  by_cases hg : g < l.toNat / 4
  · rw [tail32_congr d e _ _ _ (rem32_le l) fun b h1 h2 => hsame b (by omega) (by omega)]
    exact (tail32_injective e _ _ (rem32_le l)).ne
      (blocks32_ne d e _ g a _ (fun b hb => hsame b (by omega)) (by omega) hag hne)
  · rw [blocks32_congr d e _ _ fun b hb => hsame b (by omega) (by omega)]
    exact tail32_ne d e _ _ a _ (rem32_le l) (by omega) (by omega) hne

/-! ### The empty input -/

theorem mh32_empty (d : Nat → Byte) (s : Word) : mh32 d 0#32 s = fmix32 s := by
  simp [mh32, nblk32, rem32, blocks32, tail32, init32]

theorem mh64_empty (d : Nat → Byte) (s : Word) : mh64 d 0#32 s = fmix64 (s.setWidth 64) := by
  simp [mh64, nblk64, rem64, blocks64, tail64, init64]

/-- Settles O60: with no group and no tail byte only the avalanche is left. -/
theorem emptyInputHashesTheSeedAlone : Obligations.EmptyInputHashesTheSeedAlone := by
  refine ⟨fun d s => ⟨mh32_empty d s, ?_⟩, fun d => ?_⟩
  · rw [mh64_empty, BitVec.ofNat_toNat]
  · rw [mh32_empty, mh32_empty, mh64_empty, mh64_empty]
    decide

end Sys2Proof.Machine

namespace Sys2Proof.Machine

/-! ### A 64-bit hash from command to result -/

/-- The hash of U64 when it is done (R149). -/
theorem State.hashed_u64 (s : State) (hv : s.var = true) : s.hashed = { s with
    h64 := mh64 s.dataByte s.len s.seed, cnt := nblk64 s.len
    result := mh64 s.dataByte s.len s.seed, done := true, phase := phaseIdle } := by
  simp [State.hashed, State.unit, hv, hashValue, s.groups_u64 hv]

/-- Settles O50: the run of a command in bounds, whose outcome for U64 is the closed form. -/
theorem hashSixtyFourEndToEnd : Obligations.HashSixtyFourEndToEnd := by
  rintro s d us rest seed hp hbounds hturns hquiet hcount rfl
  obtain ⟨rep, hrun⟩ := run_command_inBounds s .u64 d us rest hp hbounds hturns hquiet hcount
  rw [accept_inBounds s .u64 d hbounds, State.hashed_u64 _ rfl] at hrun
  exact ⟨rep, hrun⟩

/-! ### The micro-operations of U64 -/

/-- A group within the buffer is read and mixed in (R143). -/
theorem exec_block64_in (s : State) (h : s.groupOff64 + 8 ≤ bufBytes) : exec .block64 s = .next { s with
    h64 := mixBlock64 s.h64 (group64 s.dataByte s.groupOff64)
    cnt := s.cnt + 1#32
    phase := if s.cnt + 1#32 < nblk64 s.len then phaseBlock else phaseTail } :=
  guardRead_in s.groupOff64 8 _ (.inr h)

/-- Settles O33: the group read is the concatenation of its bytes, and its mix is R142's formula. -/
theorem blockSixtyFourXorsThenMultiplies : Obligations.BlockSixtyFourXorsThenMultiplies := by
  refine ⟨rfl, ?_⟩
  rintro s hin k k2 hk rfl
  rw [exec_block64_in s hin, group64_eq_append, State.groupOff64, ← hk, mixBlock64, kmix64_eq]
  rfl

/-- The tail of U64 over the buffer, in R144's equivalent form. -/
theorem State.tailed64_eq (s : State) (h : DWord) : s.tailed64 h =
    if s.len.toNat % 8 = 0 then h
    else (h ^^^ BitVec.ofNat 64 (∑ j ∈ Finset.range (s.len.toNat % 8),
      (s.dataByte (8 * (s.len.toNat / 8) + j)).toNat * 2 ^ (8 * j))) * m64 := by
  rw [State.tailed64, tail64_eq _ _ _ _ (rem64_le s.len), leNat_eq_sum, rem64_eq, tailBase64_eq]

/-- Without tail bytes nothing is read; else the tail ends at `LEN` (R145). -/
theorem tail64_inBuffer (l : Word) (h : l.toNat % 8 = 0 ∨ l.toNat ≤ bufBytes) :
    rem64 l = 0 ∨ tailBase64 l + rem64 l ≤ bufBytes := by
  rwa [tailBase64_add_rem64, rem64_eq]

/-- Settles O34: the guard admits the read, and the tail has R144's equivalent form. -/
theorem tailSixtyFourMixesRemainingBytes : Obligations.TailSixtyFourMixesRemainingBytes := by
  refine ⟨rfl, fun s h => ?_⟩
  rw [exec, execTail64_eq, guardRead_in _ _ _ (tail64_inBuffer s.len h), State.tailed64_eq]
  rfl

theorem init64_eq (seed len : Word) :
    init64 seed len = BitVec.ofNat 64 seed.toNat ^^^ (BitVec.ofNat 64 len.toNat * m64) := by
  rw [BitVec.ofNat_toNat, BitVec.ofNat_toNat, init64]

/-- Settles O32: `INIT64` is R141's pseudocode, with the zero extensions read as numbers. -/
theorem initSixtyFourMultipliesTheLength : Obligations.InitSixtyFourMultipliesTheLength := by
  refine ⟨rfl, fun s => ?_⟩
  rw [exec, execInit64, init64_eq]
  rfl

/-- Settles O35: `FINAL64` is R147's pseudocode, and its avalanche R146's formula. -/
theorem finalSixtyFourDeliversTheAvalanche : Obligations.FinalSixtyFourDeliversTheAvalanche := by
  refine ⟨rfl, ?_⟩
  rintro s b rfl
  rw [exec, execFinal64, fmix64_eq]
  rfl

/-! ### `MH64` as a function of the seed and of the bytes -/

theorem mixBlock64_inj_left (k : DWord) : Function.Injective (mixBlock64 · k) := by
  intro x y h
  exact xor_right_inj _ _ _ (mul_m64_inj _ _ h)

theorem mixBlock64_inj_right (h : DWord) : Function.Injective (mixBlock64 h) := by
  intro x y hxy
  exact kmix64_injective (xor_left_inj _ _ _ (mul_m64_inj _ _ hxy))

theorem blocks64_injective (d : Nat → Byte) (n : Nat) : Function.Injective (blocks64 d · n) := by
  induction n with
  | zero => exact Function.injective_id
  | succ n ih => exact (mixBlock64_inj_left _).comp ih

theorem tail64_injective (d : Nat → Byte) (t rem : Nat) (hr : rem ≤ 7) : Function.Injective
    (tail64 · rem (d t) (d (t + 1)) (d (t + 2)) (d (t + 3)) (d (t + 4)) (d (t + 5)) (d (t + 6))) := by
  intro x y h
  simp only [tail64_eq d t rem _ hr] at h
  split at h
  · exact h
  · exact xor_right_inj _ _ _ (mul_m64_inj _ _ h)

/-- The seed is zero-extended, so no bit of it is lost, and the length's product is XORed to it (R151 item 2). -/
theorem init64_injective (l : Word) : Function.Injective (init64 · l) := by
  intro x y h
  have hext : x.setWidth 64 = y.setWidth 64 := xor_right_inj _ _ _ h
  have hback := congrArg (BitVec.setWidth 32) hext
  simpa using hback

/-- Settles O56: every stage of `MH64` is injective in the accumulator, and the first in the seed. -/
theorem seedToResultIsInjectiveSixtyFour : Obligations.SeedToResultIsInjectiveSixtyFour := by
  intro d l
  exact fmix64_injective.comp ((tail64_injective d _ _ (rem64_le l)).comp
    ((blocks64_injective d _).comp (init64_injective l)))

/-- Reads that differ somewhere are different words, where the word holds all the bytes read. -/
theorem ofNat_leNat_ne (w : Nat) (d e : Nat → Byte) (off n a : Nat) (hw : 8 * n ≤ w) (h1 : off ≤ a)
    (h2 : a < off + n) (hne : d a ≠ e a) : BitVec.ofNat w (leNat d off n) ≠ BitVec.ofNat w (leNat e off n) := by
  have hfits (f : Nat → Byte) : leNat f off n < 2 ^ w :=
    calc leNat f off n < (2 ^ 8) ^ n := leNat_lt f n off
      _ = 2 ^ (8 * n) := (pow_mul 2 8 n).symm
      _ ≤ 2 ^ w := Nat.pow_le_pow_right Nat.two_pos hw
  intro heq
  have hread := congrArg BitVec.toNat heq
  rw [BitVec.toNat_ofNat, BitVec.toNat_ofNat, Nat.mod_eq_of_lt (hfits d), Nat.mod_eq_of_lt (hfits e)] at hread
  exact hne (leNat_inj d e n off hread a h1 h2)

/-- A change inside group `g` changes the accumulator there, and every later group keeps the difference. -/
theorem blocks64_ne (d e : Nat → Byte) (h : DWord) (g a n : Nat) (hgn : g + 1 ≤ n)
    (hsame : ∀ b, b < 8 * n → b / 8 ≠ g → d b = e b) (hg : a / 8 = g) (hne : d a ≠ e a) :
    blocks64 d h n ≠ blocks64 e h n := by
  induction n, hgn using Nat.le_induction with
  | base =>
    rw [blocks64, blocks64, blocks64_congr d e h g fun b hb => hsame b (by omega) (by omega)]
    exact (mixBlock64_inj_right _).ne (ofNat_leNat_ne 64 d e (8 * g) 8 a le_rfl (by omega) (by omega) hne)
  | succ n hgn ih =>
    rw [blocks64, blocks64, group64_congr d e (8 * n) fun b h1 h2 => hsame b (by omega) (by omega)]
    exact (mixBlock64_inj_left _).ne (ih fun b hb => hsame b (by omega))

/-- A change inside the tail changes the accumulator. -/
theorem tail64_ne (d e : Nat → Byte) (t rem a : Nat) (h : DWord) (hr : rem ≤ 7) (h1 : t ≤ a) (h2 : a < t + rem)
    (hne : d a ≠ e a) :
    tail64 h rem (d t) (d (t + 1)) (d (t + 2)) (d (t + 3)) (d (t + 4)) (d (t + 5)) (d (t + 6)) ≠
      tail64 h rem (e t) (e (t + 1)) (e (t + 2)) (e (t + 3)) (e (t + 4)) (e (t + 5)) (e (t + 6)) := by
  rw [tail64_eq d t rem h hr, tail64_eq e t rem h hr, if_neg (by omega), if_neg (by omega)]
  intro heq
  exact ofNat_leNat_ne 64 d e t rem a (by omega) h1 h2 hne (xor_left_inj _ _ _ (mul_m64_inj _ _ heq))

/-- Settles O58: a change in a group reaches the tail as another accumulator, a change in the tail meets equal
accumulators; the avalanche is injective. -/
theorem everyByteParticipatesSixtyFour : Obligations.EveryByteParticipatesSixtyFour := by
  rintro d e l s g hsame ⟨a, hal, hag, hne⟩
  have hgroups := toNat_nblk64 l
  have hbase := tailBase64_eq l
  have hend := tailBase64_add_rem64 l
  rw [mh64, mh64]
  refine fmix64_injective.ne ?_
  by_cases hg : g < l.toNat / 8
  · rw [tail64_congr d e _ _ _ (rem64_le l) fun b h1 h2 => hsame b (by omega) (by omega)]
    exact (tail64_injective e _ _ (rem64_le l)).ne
      (blocks64_ne d e _ g a _ (by omega) (fun b hb => hsame b (by omega)) hag hne)
  · rw [blocks64_congr d e _ _ fun b hb => hsame b (by omega) (by omega)]
    exact tail64_ne d e _ _ a _ (rem64_le l) (by omega) (by omega) hne

end Sys2Proof.Machine

namespace Sys2Proof.Machine

/-! ### The reason of a refusal, in the order of R164 -/

/-- The reason, or its absence, that R163 and R164 give: it applies and no reason before it does; with none, no reason
applies. -/
def FirstApplicable (x : Transaction) (s : State) : Option Reason → Prop
  | some r => reasonApplies x s r ∧ ∀ r', reasonApplies x s r' → reasonRank r ≤ reasonRank r'
  | none => ∀ r, ¬ reasonApplies x s r

/-- The reasons from the first to the last (R164). -/
def reasonOrder : List Reason := [.badSize, .misaligned, .unmapped, .readOnly, .busy, .illegalCmd]

/-- No two reasons share a place in the order (R164). -/
theorem reasonRank_injective : Function.Injective reasonRank :=
  Function.LeftInverse.injective (g := (reasonOrder.getD · .badSize)) fun r => by cases r <;> rfl

/-- R163 and R164 leave one answer. -/
theorem FirstApplicable.unique {x : Transaction} {s : State} {o o' : Option Reason} (h : FirstApplicable x s o)
    (h' : FirstApplicable x s o') : o = o' := by
  cases o with
  | none =>
    cases o' with
    | none => rfl
    | some r' => exact absurd h'.1 (h r')
  | some r =>
    cases o' with
    | none => exact absurd h.1 (h' r)
    | some r' =>
      obtain ⟨happlies, hfirst⟩ := h
      obtain ⟨happlies', hfirst'⟩ := h'
      exact congrArg some (reasonRank_injective (Nat.le_antisymm (hfirst r' happlies') (hfirst' r happlies)))

/-- No reason before place `n` of the order applies. -/
def NoneBefore (x : Transaction) (s : State) (n : Nat) : Prop := ∀ r, reasonApplies x s r → n ≤ reasonRank r

/-- With no reason before `r`, and not `r` itself, the next place is reached. -/
theorem NoneBefore.succ {x : Transaction} {s : State} {r : Reason} (h : NoneBefore x s (reasonRank r))
    (hr : ¬ reasonApplies x s r) : NoneBefore x s (reasonRank r + 1) := fun r' hr' =>
  Nat.lt_of_le_of_ne (h r' hr') fun heq => hr (reasonRank_injective heq ▸ hr')

/-- There are six places. -/
theorem NoneBefore.none_applies {x : Transaction} {s : State} (h : NoneBefore x s 6) : FirstApplicable x s none := by
  intro r hr
  have hlt : reasonRank r < 6 := by cases r <;> decide
  exact absurd (h r hr) (Nat.not_le.mpr hlt)

/-- One check of the port: a test that means that `r` applies, at `r`'s place in the order. -/
theorem FirstApplicable.ite {x : Transaction} {s : State} {r : Reason} {o : Option Reason} {P : Prop} [Decidable P]
    (hP : reasonApplies x s r ↔ P) (hbefore : NoneBefore x s (reasonRank r))
    (hrest : NoneBefore x s (reasonRank r + 1) → FirstApplicable x s o) :
    FirstApplicable x s (if P then some r else o) := by
  split
  · next h => exact ⟨hP.mpr h, hbefore⟩
  · next h => exact hrest (hbefore.succ (mt hP.mp h))

/-! ### The port's checks are the conditions of R163 -/

theorem badSize_applies_iff (x : Transaction) (s : State) :
    reasonApplies x s .badSize ↔ legalSize x.space x.n = false := by
  cases hsp : x.space <;> simp [reasonApplies, legalSize, hsp, and_assoc]

theorem unmapped_applies_iff (x : Transaction) (s : State) :
    reasonApplies x s .unmapped ↔ spaceEnd x.space < x.off + x.n := by
  cases hsp : x.space <;> simp [reasonApplies, spaceEnd, hsp]

/-- The last three reasons concern writes only (R163). -/
theorem rank_lt_of_read_applies {x : Transaction} {s : State} {r : Reason} (hk : x.kind = .read)
    (hr : reasonApplies x s r) : reasonRank r < reasonRank .readOnly := by
  cases r with
  | badSize | misaligned | unmapped => decide
  | readOnly | busy | illegalCmd => simp [reasonApplies, hk] at hr

theorem readOnly_applies_iff (x : Transaction) (v : Word) (s : State) (hk : x.kind = .write v) :
    reasonApplies x s .readOnly ↔ x.space = .reg ∧ readOnlyReg x.off = true := by
  simp [reasonApplies, readOnlyReg, hk, or_assoc]

theorem busy_applies_iff (x : Transaction) (v : Word) (s : State) (hk : x.kind = .write v) :
    reasonApplies x s .busy ↔ s.busy = true := by
  simp [reasonApplies, hk, State.busy_eq_true_iff]

theorem illegalCmd_applies_iff (x : Transaction) (v : Word) (s : State) (hk : x.kind = .write v) :
    reasonApplies x s .illegalCmd ↔ x.space = .reg ∧ x.off = 0x00 ∧ legalCommand v = false := by
  rw [← Bool.not_eq_true, legalCommand_iff]
  simp [reasonApplies, hk]

/-- The checks of a write, after those that concern reads and writes alike (R164). -/
theorem writeRefusal_firstApplicable (x : Transaction) (v : Word) (s : State) (hk : x.kind = .write v)
    (hbefore : NoneBefore x s (reasonRank .readOnly)) : FirstApplicable x s (writeRefusal x v s) :=
  .ite (readOnly_applies_iff x v s hk) hbefore fun hbefore =>
  .ite (busy_applies_iff x v s hk) hbefore fun hbefore =>
  .ite (illegalCmd_applies_iff x v s hk) hbefore NoneBefore.none_applies

/-- The port's checks stand in the order of R164. -/
theorem refusalOf_firstApplicable (x : Transaction) (s : State) : FirstApplicable x s (refusalOf x s) := by
  unfold refusalOf
  refine .ite (badSize_applies_iff x s) (fun _ _ => Nat.zero_le _) fun hbefore =>
    .ite Iff.rfl hbefore fun hbefore => .ite (unmapped_applies_iff x s) hbefore fun hbefore => ?_
  cases hk : x.kind with
  | read => exact fun r hr => absurd (hbefore r hr) (Nat.not_le.mpr (rank_lt_of_read_applies hk hr))
  | write v => exact writeRefusal_firstApplicable x v s hk hbefore

/-- The port's answer is the one that R163 and R164 give. -/
theorem refusalOf_eq_iff (x : Transaction) (s : State) (o : Option Reason) :
    refusalOf x s = o ↔ FirstApplicable x s o :=
  ⟨fun h => h ▸ refusalOf_firstApplicable x s, (refusalOf_firstApplicable x s).unique⟩

/-- Settles O13: the port's checks are the conditions of R163 in the order of R164, and a refused transaction leaves its
reply only. -/
theorem refusalIsFirstApplicableReason : Obligations.RefusalIsFirstApplicableReason := fun x s =>
  ⟨fun r => refusalOf_eq_iff x s (some r), refusalOf_eq_iff x s none,
    fun r rest hr hturns => step_refused s x rest r hturns hr⟩

/-! ### `PHASE` codes 5 to 7 -/

/-- The codes 5, 6 and 7 select nothing, for either unit (R85). -/
theorem decodeSelector_unreachable (s : State) (hp : 5 ≤ s.phase.toNat) :
    decodeSelector s.selector = .error .unreachableSelector := by
  have hall : ∀ (v : Bool) (p : BitVec 3), 5 ≤ p.toNat →
      decodeSelector (selectorOf v p) = .error .unreachableSelector := by decide
  exact hall s.var s.phase hp

theorem State.phase_ne_idle_of_unreachable {s : State} (hp : 5 ≤ s.phase.toNat) : s.phase ≠ phaseIdle := by
  intro hidle
  simp [hidle] at hp

/-- A host write is refused in these phases as in a running hash (R68, R174). -/
theorem step_write_not_idle (s : State) (x : Transaction) (v : Word) (rest : List Turn)
    (hp : s.phase ≠ phaseIdle) (hturns : s.turns = .host x :: rest) (hk : x.kind = .write v) :
    ∃ r, (LegalTransaction x { s with phase := phaseIdle } → r = .busy) ∧ step s = .next { s with
      turns := rest, reply := some { resp := .error, rdata := none, reason := some r } } := by
  obtain ⟨hrefused, hbusy⟩ := writesWhileBusyAreRefused s x v rest hp hturns hk
  by_cases hlegal : LegalTransaction x { s with phase := phaseIdle }
  · exact ⟨.busy, fun _ => rfl, hbusy hlegal⟩
  · obtain ⟨r, hstep⟩ := hrefused
    exact ⟨r, fun h => absurd h hlegal, hstep⟩

/-- Only reset leaves these phases: no command is accepted there, and the sequencer has no step (R174). -/
theorem unreachable_phase_stays (s t : State) (hp : 5 ≤ s.phase.toNat) (h : step s = .next t)
    (hreset : ∀ rest, s.turns ≠ .reset :: rest) : t.phase = s.phase := by
  obtain ⟨_, _, hsequencer, hother⟩ := phaseFollowsTheFixedGraph s t h
  by_cases hseq : s.turns = [] ∨ ∃ rest, s.turns = .sequencer :: rest
  · obtain ⟨_, _, _, _, hstays⟩ := hsequencer hseq
    exact hstays (.inr hp)
  · exact hother (fun ⟨rest, hturns⟩ => hreset rest hturns)
      (fun ⟨hidle, _⟩ => State.phase_ne_idle_of_unreachable hp hidle) hseq

/-- Settles O8: nothing is selected, writes meet `BUSY`, reset ends it; and reachable states meet the invariant, which
bounds `PHASE`. -/
theorem unreachablePhasesAreStuck : Obligations.UnreachablePhasesAreStuck := by
  refine ⟨fun s hp => ?_, fun us n t h => ?_⟩
  · have hnone := decodeSelector_unreachable s hp
    exact ⟨fun hturns => step_alone_unselected s _ hturns hnone,
      fun rest hturns => step_turn_unselected s _ rest hturns hnone,
      fun x v rest hturns hk => step_write_not_idle s x v rest (State.phase_ne_idle_of_unreachable hp) hturns hk,
      fun t h hreset => unreachable_phase_stays s t hp h hreset,
      fun rest hturns => ⟨_, step_cons s _ rest hturns, rfl⟩⟩
  · have hinv : t.Inv := run_keeps everyStepKeepsTheInvariant n _ t (reset_inv 0 us) h
    exact hinv.phaseLegal

/-! ### The bounds error -/

/-- Settles O24: the state is the one of `accept_outOfBounds`, read field by field. -/
theorem boundsErrorLeavesThisState : Obligations.BoundsErrorLeavesThisState := by
  intro s u d rest hp hbounds hturns
  have hunit : HashUnit.bit u = true ↔ u = .u64 := by cases u <;> decide
  have hstep := step_command s u d rest hturns hp
  rw [State.accept_turns, accept_outOfBounds s u d hbounds] at hstep
  refine ⟨_, hstep, rfl, rfl, rfl, hp,
    (State.busy_eq_false_iff _).mpr hp, hunit, ?_, rfl, rfl, rfl, rfl, rfl, rfl, rfl, fun _ => rfl⟩
  cases u <;> cases d <;> rfl

/-- `ERR` stays 1 in the idle block: of the effects of a step only reset, acceptance and a selected micro-operation
reach `ERR` or `PHASE`, and in the idle block none is selected (R84, R167). -/
theorem err_stays (s t : State) (herr : s.err = true) (hp : s.phase = phaseIdle) (h : step s = .next t)
    (hreset : ∀ rest, s.turns ≠ .reset :: rest) (haccept : ∀ u d rest, s.turns ≠ cmdWrite (commandCode u d) :: rest) :
    t.err = true ∧ t.phase = phaseIdle := by
  rcases step_effect s t h with ⟨rest, h0, _⟩ | ⟨u, rest, rep, _, _, rfl⟩ | ⟨off, n, v, rest, _, _, _, rfl⟩ |
    ⟨off, v, rest, _, _, _, rfl⟩ | ⟨u, d, rest, h0, _, _⟩ | ⟨i, rest, _, hi, _⟩
  · exact absurd h0 (hreset rest)
  · exact ⟨herr, hp⟩
  · exact ⟨herr, hp⟩
  · obtain ⟨a, b, c, heq⟩ := ({ s with turns := rest } : State).regWrite_operands off v
    rw [heq]
    exact ⟨herr, hp⟩
  · exact absurd h0 (haccept u d rest)
  · cases (decodeSelector_idle s hp).symm.trans hi

/-- Settles O27: `ERR` stays by `err_stays`; the bounds error leaves `PHASE`, `LEN` and `DSIZE`, so the next command
meets it again. -/
theorem errStaysUntilNextAcceptance : Obligations.ErrStaysUntilNextAcceptance := by
  refine ⟨err_stays, fun s u d u' d' rest hp hbounds hturns => ?_⟩
  obtain ⟨t₁, hstep₁, herr₁, _, _, hp₁, _, _, _, hlen, hdsize, _, _, _, hturns₁, _, _⟩ :=
    boundsErrorLeavesThisState s u d _ hp hbounds hturns
  obtain ⟨t₂, hstep₂, herr₂, _, _, hp₂, _⟩ :=
    boundsErrorLeavesThisState t₁ u' d' rest hp₁ (by rwa [hlen, hdsize]) hturns₁
  exact ⟨t₁, t₂, run_succ 0 s t₁ hstep₁, herr₁, (run_succ 1 s t₁ hstep₁).trans (run_succ 0 t₁ t₂ hstep₂), herr₂, hp₂⟩

end Sys2Proof.Machine

namespace Sys2Proof.Machine

/-! ### Reset, the running hash and the idle block -/

/-- Settles O2: the reset event leaves `State.reset` in a new epoch, whose buffer holds no written cell. -/
theorem resetEventAbandonsEverything : Obligations.ResetEventAbandonsEverything := fun s rest hturns =>
  ⟨({ s with turns := rest } : State).resetEvent, step_cons s .reset rest hturns,
    rfl, rfl, rfl, rfl, rfl, rfl, rfl, rfl, rfl, rfl, rfl, rfl, rfl,
    State.dataByte_of_nil _ (State.resetEvent_data _)⟩

/-- Short of its `NBLK + 3` steps a hash by itself is before INIT, within its groups, or before FINAL: it runs, and only
FINAL reaches `RESULT` and the flags (R195, R202). -/
theorem run_hash_unfinished (s : State) (hturns : s.turns = []) (hp : s.phase = phaseInit)
    (hlen : s.len.toNat ≤ bufBytes) (n : Nat) (hn : n < s.groups + 3) :
    ∃ t, run n s = .next t ∧ t.phase ≠ phaseIdle ∧ t.done = s.done ∧ t.err = s.err ∧ t.result = s.result := by
  cases n with
  | zero => exact ⟨s, rfl, hp ▸ phases_distinct.2.1.1, rfl, rfl, rfl⟩
  | succ m =>
    obtain hm | rfl : m ≤ s.groups ∨ m = s.groups + 1 := by omega
    · exact ⟨s.loop m, run_loop s hturns hp hlen m hm, loop_phase_ne_idle _ _, rfl, rfl, rfl⟩
    · have hrun := run_add (s.groups + 1) 1 s _ (run_loop s hturns hp hlen s.groups le_rfl)
      have htail := hrun.trans (run_succ 0 _ _ (step_tail s hturns hlen))
      exact ⟨s.tailed, htail, phases_distinct.2.2.2.2.1, rfl, rfl, rfl⟩

/-- A command in the idle block followed by quiet turns: what the accepted hash does by itself in as many steps as the
sequencer has turns among them (R61, R101). -/
theorem run_command_quiet (s t : State) (u : HashUnit) (d : Bool) (us rest : List Turn) (hp : s.phase = phaseIdle)
    (hturns : s.turns = cmdWrite (commandCode u d) :: (us ++ rest)) (hquiet : ∀ v ∈ us, Turn.quiet v = true)
    (h : run (seqTurns us) (s.accept u d).alone = .next t) :
    ∃ rep, run (us.length + 1) s = .next { t with turns := rest, reply := rep } := by
  have hstep := step_command s u d _ hturns hp
  rw [State.accept_turns] at hstep
  obtain ⟨rep, hrun⟩ := run_quiet us { s.accept u d with turns := us ++ rest } t rest rfl hquiet h
  exact ⟨rep, (run_succ _ s _ hstep).trans hrun⟩

/-- Settles O51: acceptance clears `RESULT` and the flags, and the unfinished hash leaves them so. -/
theorem resultIsZeroUntilTheLastStep : Obligations.ResultIsZeroUntilTheLastStep := by
  intro s u d us rest hp hbounds hturns hquiet hcount
  have haccept := accept_inBounds s u d hbounds
  have hlen : s.len.toNat ≤ bufBytes := hbounds.trans (Nat.min_le_right _ _)
  rw [← s.accept_groups u d] at hcount
  obtain ⟨t, hrun, hphase, hdone, herr, hresult⟩ := run_hash_unfinished (s.accept u d).alone rfl
    (by rw [haccept]; rfl) (by rw [haccept]; exact hlen) (seqTurns us) hcount
  obtain ⟨rep, hrun⟩ := run_command_quiet s t u d us rest hp hturns hquiet hrun
  rw [haccept] at hdone herr hresult
  exact ⟨_, hrun, (State.busy_eq_true_iff _).mpr hphase, hdone, herr, hresult⟩

/-- In the idle block only reset and acceptance reach `RESULT`, the flags, `VAR` and `PHASE`: a host write reaches the
buffer or an operand register, and no micro-operation is selected (R57, R84, R198). -/
theorem idle_step_keeps_outcome (s t : State) (hp : s.phase = phaseIdle) (h : step s = .next t)
    (hreset : ∀ rest, s.turns ≠ .reset :: rest) (haccept : ∀ u d rest, s.turns ≠ cmdWrite (commandCode u d) :: rest) :
    t.result = s.result ∧ t.done = s.done ∧ t.err = s.err ∧ t.var = s.var ∧ t.phase = s.phase := by
  rcases step_effect s t h with ⟨rest, h0, _⟩ | ⟨u, rest, rep, _, _, rfl⟩ | ⟨off, n, v, rest, _, _, _, rfl⟩ |
    ⟨off, v, rest, _, _, _, rfl⟩ | ⟨u, d, rest, h0, _, _⟩ | ⟨i, rest, _, hi, _⟩
  · exact absurd h0 (hreset rest)
  · exact ⟨rfl, rfl, rfl, rfl, rfl⟩
  · exact ⟨rfl, rfl, rfl, rfl, rfl⟩
  · obtain ⟨a, b, c, heq⟩ := ({ s with turns := rest } : State).regWrite_operands off v
    rw [heq]
    exact ⟨rfl, rfl, rfl, rfl, rfl⟩
  · exact absurd h0 (haccept u d rest)
  · cases (decodeSelector_idle s hp).symm.trans hi

/-- Settles O48: `idle_step_keeps_outcome`, with `DONE` 1 and `PHASE` IDLE before the step. -/
theorem resultIsStableAfterDone : Obligations.ResultIsStableAfterDone := by
  intro s t hdone hp h hreset haccept
  obtain ⟨hresult, hd, herr, hvar, hphase⟩ := idle_step_keeps_outcome s t hp h hreset haccept
  exact ⟨hresult, hd.trans hdone, herr, hvar, hphase.trans hp⟩

end Sys2Proof.Machine
